-- ==== Sys2Proof/Word.lean ====
section
/-! DEFINITION. The widths of SCM32's values (spec/00_scope.md section 5; 30_encoding.md R60). -/

namespace Sys2Proof

/-- `u32`: an unsigned 32-bit value, the width of `V` and of the serial (R7 `W`, R80). -/
abbrev Word := BitVec 32

/-- `u8`: one login byte, the width of `PRE[i]` and of the field `data` (R22, R60). -/
abbrev Byte := BitVec 8

/-- The word on the command port, `cmd[9:0]` (R34, R60). -/
abbrev CmdWord := BitVec 10

end Sys2Proof
end

