-- ==== Sys2Proof/Config.lean ====
section
/-! DEFINITION. The constants of the algorithm (spec/00_scope.md R7). They are fixed: the block has no configuration
field and no free value (93_implementation_defined.md section 1; 92_eei_decisions.md, end). -/

namespace Sys2Proof.Config

/-- `K_XOR`, XORed with byte 3 to form the seed. -/
def kXor : Word := 0x00001337#32

/-- `K_ADD`, added to form the seed. -/
def kAdd : Word := 6221293#32

/-- `K_MOD`, the unsigned modulus of the fold. -/
def kMod : Word := 1337#32

/-- `MIN_LEN`, the least login length in bytes. -/
def minLen : Nat := 4

/-- `SEED_IDX`, the index of the seed byte. -/
def seedIdx : Nat := 3

end Sys2Proof.Config
end

