-- ==== Sys2Proof/Machine/Operands.lean ====
section
/-! DEFINITION. The one operand form (spec/30_encoding.md R63; 40_datapath.md R81). -/

namespace Sys2Proof.Machine

/-- `zext_32(b)`: the byte widened with 24 zero bits on top, never sign-extended (R63, R81). -/
def zext32 (b : Byte) : Word := b.setWidth 32

end Sys2Proof.Machine
end

