-- ==== Sys2Proof/Machine/State.lean ====
section
/-! DEFINITION. The state of SCM32 (spec/10_state.md): the 62 bits of registers, and what the host drives on the ports
at the coming clock edges. -/

namespace Sys2Proof.Machine

/-- The legal values of the 3-bit counter `N`; 5, 6 and 7 are unrepresentable, as R23 asks (log entry 5). -/
inductive Count where
  | zero
  | one
  | two
  | three
  /-- At least 4 bytes absorbed: the counter is saturated. -/
  | four
  deriving DecidableEq, Repr

/-- The number a counter value stands for. -/
def Count.toNat : Count → Nat
  | .zero => 0
  | .one => 1
  | .two => 2
  | .three => 3
  | .four => 4

/-- The architectural registers (10_state.md section 1); there are no others (R20, R27, R28, R33). -/
structure Regs where
  /-- `V`, the mixing value (R21). -/
  v : Word
  /-- `PRE[0]`, login byte 0 (R22). -/
  pre0 : Byte
  /-- `PRE[1]`, login byte 1 (R22). -/
  pre1 : Byte
  /-- `PRE[2]`, login byte 2 (R22). -/
  pre2 : Byte
  /-- `N`, the login bytes absorbed, saturating at 4 (R23). -/
  n : Count
  /-- `DONE`: the login ended with at least 4 bytes (R24). -/
  done : Bool
  /-- `ERR`: the login ended with fewer than 4 bytes (R25). -/
  err : Bool
  deriving DecidableEq, Repr

/-- The prefix buffer by index (R22, R42). -/
def Regs.pre (r : Regs) : Fin 3 → Byte
  | 0 => r.pre0
  | 1 => r.pre1
  | 2 => r.pre2

/-- The reset values (R32). -/
def Regs.reset : Regs where
  v := 0x00000000#32
  pre0 := 0x00#8
  pre1 := 0x00#8
  pre2 := 0x00#8
  n := .zero
  done := false
  err := false

/-- Where the block stands with its port `cmd_ready` (R29, R150, R155). It is no architectural state (R30) and no
command reads or writes it; only clock edges do (log entry 3). -/
inductive Handshake where
  /-- The last edge had `rst = 1`; no edge with `rst = 0` has come yet (R150). -/
  | afterReset
  /-- No command is being worked on: the block is ready (R29, R150). -/
  | idle
  /-- A command was accepted and `cmd_ready` has not been seen high again (R29, R157). -/
  | working
  deriving DecidableEq, Repr

/-- The port values at one rising edge of `clk` (R34), and whether the block, if it may still be working there, still
is. -/
structure PortSample where
  /-- `rst`, synchronous reset, active high. -/
  rst : Bool
  /-- The block holds `cmd_ready` low at this edge. It stands for the open `T_BUSY` (R157) and is not read while the
  block is idle (DESIGN CHOICE, safe: log entry 3). -/
  busy : Bool
  /-- `cmd_valid`: the host offers a command. -/
  cmdValid : Bool
  /-- `cmd[9:0]`, meaningful only while `cmd_valid = 1`. -/
  cmd : CmdWord
  deriving DecidableEq, Repr

/-- The machine: its registers, where it stands with `cmd_ready`, and the port values at the coming clock edges, the
next edge first. `input` is the model's own field: it holds what the host will do (DESIGN CHOICE, safe: log entry 1). -/
structure State where
  regs : Regs
  handshake : Handshake
  input : List PortSample
  deriving DecidableEq, Repr

/-- The block right after a reset edge (R32, R150), with a host that has offered nothing yet. -/
def State.reset : State where
  regs := Regs.reset
  handshake := .afterReset
  input := []

/-- The block's one synchronous exception (R130). It is recorded in `ERR`; it stops nothing. -/
inductive Exception where
  /-- Raised by `FIN` in phase `ABSORB` with `N < 4` (R132). -/
  | invalidInput
  deriving DecidableEq, Repr

/-- What stops the machine: nothing, so there is no constructor and nobody raises one. The step is total and no state
refuses commands (R142, R158; 93_implementation_defined.md section 2). InvalidInput is a next state with `ERR = 1`
(R133; log entry 7). Safe: the model never stops where the hardware goes on. -/
inductive Fault where
  deriving DecidableEq, Repr

/-- Why a command has no meaning. -/
inductive Refusal where
  /-- Raised only by an arm of `exec` whose command has no meaning yet; every command has one, so nobody raises it.
  Safe: a stop in place of an effect. -/
  | notModelled (mnemonic : String)
  deriving DecidableEq, Repr

end Sys2Proof.Machine
end

