-- ==== Sys2Proof/Machine/Datapath.lean ====
section
/-! DEFINITION. The datapath functions (spec/40_datapath.md R80 to R89): values to values, no state. -/

namespace Sys2Proof.Machine

/-- `a ^ b` (R89). -/
def xor32 (a b : Word) : Word := a ^^^ b

/-- `a +32 b = (a + b) mod 2^32`; the carry is discarded and recorded nowhere (R82). -/
def add32 (a b : Word) : Word := a + b

/-- `a umod 1337`: the remainder of `a`, read as a number in 0..2^32-1 (R85). -/
def umodK (a : Word) : Word := BitVec.ofNat 32 (a.toNat % Config.kMod.toNat)

/-- `Seed(b) = (zext_32(b) ^ K_XOR) +32 K_ADD` (R83). -/
def seed (b : Byte) : Word := add32 (xor32 (zext32 b) Config.kXor) Config.kAdd

/-- `Fold(v, c) = v +32 ((v ^ zext_32(c)) umod K_MOD)` (R84). -/
def fold (v : Word) (c : Byte) : Word := add32 v (umodK (xor32 v (zext32 c)))

/-- `FoldAll`: the fold of a sequence of bytes, first byte first (R87). -/
def foldAll : Word → List Byte → Word
  | v, [] => v
  | v, c :: cs => foldAll (fold v c) cs

/-- What one call of the document's `calculate_serial` gives (R2, R86). -/
inductive CallResult where
  | serial (v : Word)
  | failed (e : Exception)
  deriving DecidableEq, Repr

/-- `Serial(L)`, the meaning of the whole block (R86): the length test first, then the seed from byte 3 and the fold
over every byte from byte 0 on. The default of `getD` is never read: index 3 is in range there. -/
def serial (L : List Byte) : CallResult :=
  if L.length < Config.minLen then .failed .invalidInput
  else .serial (foldAll (seed (L.getD Config.seedIdx 0)) L)

end Sys2Proof.Machine
end

