-- ==== Sys2Proof/Machine/Flags.lean ====
section
/-! DEFINITION. What the flags `DONE` and `ERR` and the counter say (spec/10_state.md R23 to R26; 60_exceptions.md R131). -/

namespace Sys2Proof.Machine

/-- The phases of R26. -/
inductive Phase where
  /-- A login is being received, possibly still empty. -/
  | absorb
  /-- The login ended and the serial is valid. -/
  | done
  /-- The login ended too short. -/
  | fail
  deriving DecidableEq, Repr

/-- The phase as a function of the two flags; the pair R26 calls not reachable has none. -/
def Regs.phase (r : Regs) : Option Phase :=
  match r.done, r.err with
  | false, false => some .absorb
  | true, false => some .done
  | false, true => some .fail
  | true, true => none

/-- `DONE = 1 or ERR = 1`: the test with which R110 and R120 begin. -/
def Regs.ended (r : Regs) : Bool := r.done || r.err

/-- `N = 4`: at least 4 bytes were absorbed (R23, R120 item 6). -/
def Regs.longEnough (r : Regs) : Bool := decide (r.n = .four)

/-- The cause code of an exception (R131). -/
def Exception.code : Exception → Nat
  | .invalidInput => 1

/-- The exception recorded in the registers: `ERR` is the whole record (R131). -/
def Regs.cause (r : Regs) : Option Exception :=
  if r.err then some .invalidInput else none

/-- The code of the recorded exception, 0 for none (R131). -/
def Regs.causeCode (r : Regs) : Nat :=
  match r.cause with
  | some e => e.code
  | none => 0

end Sys2Proof.Machine
end

