-- ==== Sys2Proof/Machine/Ops.lean ====
section
/-! DEFINITION. The named operations on the registers: absorbing a byte, raising InvalidInput, leaving it, publishing
the serial (spec/42_absorb.md, 43_finalize.md, 60_exceptions.md, 70_reset_and_hazards.md). -/

namespace Sys2Proof.Machine

/-- Absorb one byte in phase `ABSORB` (R110): wait in `PRE[N]`, seed and fold four bytes, or fold one. -/
def Regs.absorb (c : Byte) (r : Regs) : Regs :=
  match r.n with
  | .zero => { r with pre0 := c, n := .one }
  | .one => { r with pre1 := c, n := .two }
  | .two => { r with pre2 := c, n := .three }
  | .three => { r with v := fold (fold (fold (fold (seed c) r.pre0) r.pre1) r.pre2) c, n := .four }
  | .four => { r with v := fold r.v c }

/-- Taking the exception (R133): `ERR <- 1`, nothing saved, nothing else changed. -/
def Regs.raise (e : Exception) (r : Regs) : Regs :=
  match e with
  | .invalidInput => { r with err := true }

/-- Leaving the failure (R136), which is also how a login is dropped: every register takes its reset value, whatever
the state before (R101, R150). -/
def Regs.clear (_ : Regs) : Regs := Regs.reset

/-- The login ended with at least 4 bytes: `DONE <- 1`, and `V` stays as it is (R120). -/
def Regs.publish (r : Regs) : Regs := { r with done := true }

/-- The reset step of the registers at an edge with `rst = 1` (R150). -/
def State.resetStep (s : State) : State := { s with regs := s.regs.clear }

end Sys2Proof.Machine
end

