-- ==== Sys2Proof/Machine/Absorb.lean ====
section
/-! DEFINITION. The absorb command PUSH (spec/42_absorb.md). -/

namespace Sys2Proof.Machine

/-- `PUSH c`: ignored after the login has ended, else the byte is absorbed (R110). -/
def execPush (c : Byte) (s : State) : Host.Outcome State Fault Refusal :=
  if s.regs.ended then .next s else .next { s with regs := s.regs.absorb c }

end Sys2Proof.Machine
end

