-- ==== Sys2Proof/Machine/Control.lean ====
section
/-! DEFINITION. The control commands NOP and CLR (spec/41_control_commands.md). -/

namespace Sys2Proof.Machine

/-- `NOP`: every register keeps its value, in every phase (R100). -/
def execNop (s : State) : Host.Outcome State Fault Refusal := .next s

/-- `CLR`: discard the login and any result, in every phase (R101). -/
def execClr (s : State) : Host.Outcome State Fault Refusal := .next { s with regs := s.regs.clear }

end Sys2Proof.Machine
end

