-- ==== Sys2Proof/Machine/Finalize.lean ====
section
/-! DEFINITION. The finalize command FIN (spec/43_finalize.md). -/

namespace Sys2Proof.Machine

/-- `FIN`: the phase test before the length test (R135), then the serial is published or InvalidInput is raised
(R120). -/
def execFin (s : State) : Host.Outcome State Fault Refusal :=
  if s.regs.ended then .next s
  else if s.regs.longEnough then .next { s with regs := s.regs.publish }
  else .next { s with regs := s.regs.raise .invalidInput }

end Sys2Proof.Machine
end

