-- ==== Sys2Proof/Syntax.lean ====
section
/-! DEFINITION. The four commands of spec/opcode_table.json (30_encoding.md R62). -/

namespace Sys2Proof

/-- One accepted command. `NOP`, `CLR` and `FIN` ignore the field `data` (R64), so only `PUSH` carries an operand. -/
inductive Instr where
  /-- `NOP` (R100). -/
  | nop
  /-- `CLR` (R101). -/
  | clr
  /-- `PUSH c` (R110), `c` the login byte `cmd[7:0]`. -/
  | push (c : Byte)
  /-- `FIN` (R120). -/
  | fin
  deriving DecidableEq, Repr

end Sys2Proof
end

