-- ==== Sys2Proof/Machine/Dispatch.lean ====
section
/-! DEFINITION. One arm per command. -/

namespace Sys2Proof.Machine

/-- The meaning of each command, by the rule its row of spec/opcode_table.json names. -/
def exec (i : Instr) (s : State) : Host.Outcome State Fault Refusal :=
  match i with
  | .nop => Sys2Proof.Machine.execNop s
  | .clr => Sys2Proof.Machine.execClr s
  | .push c => Sys2Proof.Machine.execPush c s
  | .fin => Sys2Proof.Machine.execFin s

end Sys2Proof.Machine
end

