-- ==== Sys2Proof/WellFormed.lean ====
section
/-! DEFINITION. Well-formed commands. Every byte value is legal (30_encoding.md R63) and there is no reserved or
illegal encoding (R64), so no command is ill-formed; the assembler lines of R66 and R67, which can be ill-formed, have
their check in Machine/Assembly.lean. -/

namespace Sys2Proof

/-- Every command is legal, `PUSH` with each of the 256 bytes included (R63, R64). -/
def Instr.wellFormed : Instr → Bool
  | .nop => true
  | .clr => true
  | .push _ => true
  | .fin => true

end Sys2Proof
end

