-- ==== Sys2Proof/Decode.lean ====
section
/-! DEFINITION. The command word (spec/30_encoding.md R60 to R65): its fields, the decoder, the encoder, and the rows
of the opcode map. The decoder is total: no word is illegal (R62, R64). -/

namespace Sys2Proof

/-- `cmd[9:8]`, the opcode (R60). -/
def opField (w : CmdWord) : BitVec 2 := w.extractLsb' 8 2

/-- `cmd[7:0]`, the byte of `PUSH` (R60). -/
def dataField (w : CmdWord) : Byte := w.extractLsb' 0 8

/-- The word of format C with the given fields (R60). -/
def formatC (op : BitVec 2) (data : Byte) : CmdWord := op ++ data

/-- The command a word decodes to, by `cmd[9]` and `cmd[8]` alone (R62). -/
def decode (w : CmdWord) : Instr :=
  match w.getLsbD 9, w.getLsbD 8 with
  | false, false => .nop
  | false, true => .clr
  | true, false => .push (dataField w)
  | true, true => .fin

/-- The canonical word of a command: `data = 0x00` where the field is ignored (R64, R66). -/
def encode : Instr → CmdWord
  | .nop => formatC 0b00#2 0x00#8
  | .clr => formatC 0b01#2 0x00#8
  | .push c => formatC 0b10#2 c
  | .fin => formatC 0b11#2 0x00#8

/-- The column `match` of a command's row in R62. -/
def Instr.rowMatch : Instr → CmdWord
  | .nop => 0x000#10
  | .clr => 0x100#10
  | .push _ => 0x200#10
  | .fin => 0x300#10

/-- The column `mask`, the same in every row of R62. -/
def rowMask : CmdWord := 0x300#10

/-- The decoder's reading of a word numbered as spec/opcode_table.json numbers it: the bits above `nbits` are 0, and a
number with a bit set above `cmd[9]` is no word of the 10-bit port (log entry 4). -/
def decodeTableWord (nbits w : Nat) : Option Instr :=
  if w % 2 ^ nbits < 2 ^ 10 then some (decode (BitVec.ofNat 10 (w % 2 ^ nbits))) else none

end Sys2Proof
end

