-- ==== Sys2Proof/Machine/Ports.lean ====
section
/-! DEFINITION. The ports (spec/10_state.md R29, R34; 30_encoding.md R61; 70_reset_and_hazards.md R151, R155): what a
clock edge delivers to the block, and what the host may see. -/

namespace Sys2Proof.Machine

/-- The output ports that are functions of the registers (R29). -/
structure Outputs where
  doneO : Bool
  errO : Bool
  serialO : Word
  deriving DecidableEq, Repr

/-- `done_o = DONE`, `err_o = ERR`, and `serial_o` is `V` behind the gate `DONE` (R29). -/
def Regs.outputs (r : Regs) : Outputs where
  doneO := r.done
  errO := r.err
  serialO := if r.done then r.v else 0x00000000#32

/-- The output `cmd_ready`: low while `rst = 1` (R150), high while the block is idle (R29, R150), and for the block to
say while it may be working (R157) and at the first edge after reset (log entry 15). No function of the registers. -/
def PortSample.cmdReady (e : PortSample) (h : Handshake) : Bool := !e.rst && (decide (h = .idle) || !e.busy)

/-- Acceptance: `rst = 0`, `cmd_valid = 1` and `cmd_ready = 1` at the edge (R61). -/
def PortSample.accepts (e : PortSample) (h : Handshake) : Bool := !e.rst && e.cmdValid && e.cmdReady h

/-- The handshake after an edge: a reset edge discards the command worked on (R151); an accepted command is worked on;
after the first edge with `rst = 0` the block is ready (R150), and it stays so until it accepts a command (R29). -/
def Handshake.after (h : Handshake) (e : PortSample) : Handshake :=
  if e.rst then .afterReset
  else if e.accepts h then .working
  else match h with
    | .afterReset => .idle
    | .idle => .idle
    | .working => if e.busy then .working else .idle

/-- What an edge can do to the registers: one of the two kinds of step of 00_scope.md section 5. -/
inductive Event where
  | reset
  | command (i : Instr)
  deriving DecidableEq, Repr

/-- The event of an edge, if any: reset wins over a command (R135, R151); a command is accepted whole (R61). -/
def PortSample.event? (e : PortSample) (h : Handshake) : Option Event :=
  if e.rst then some .reset
  else if e.accepts h then some (.command (decode e.cmd))
  else none

/-- What the host may sample at an edge: the outputs of the state before it (R48 item 3), and no value while
`cmd_ready = 0` (R155; 93 U2; log entry 6). -/
def State.observe (s : State) (e : PortSample) : Option Outputs :=
  if e.cmdReady s.handshake then some s.regs.outputs else none

/-- An edge at which the block is ready and the host offers the word `w`. -/
def PortSample.offer (w : CmdWord) : PortSample where
  rst := false
  busy := false
  cmdValid := true
  cmd := w

/-- An edge with `rst = 1`. -/
def PortSample.resetEdge : PortSample where
  rst := true
  busy := false
  cmdValid := false
  cmd := 0x000#10

/-- The host offers the word `w` at the very next edge. -/
def State.offerNext (w : CmdWord) (s : State) : State := { s with input := PortSample.offer w :: s.input }

end Sys2Proof.Machine
end

