-- ==== Sys2Proof/Machine/Clock.lean ====
section
/-! DEFINITION. One rising edge of `clk` (spec/30_encoding.md R61; 70_reset_and_hazards.md R150, R151). -/

namespace Sys2Proof.Machine

/-- An event changes the registers by its own rule (R61, R150). -/
def State.handle (ev : Event) (s : State) : Host.Outcome State Fault Refusal :=
  match ev with
  | .reset => .next s.resetStep
  | .command i => exec i s

/-- The edge `e`: the handshake moves on, and the edge's event takes effect; an edge without one leaves the registers
as they are (R61). -/
def State.edge (e : PortSample) (s : State) : Host.Outcome State Fault Refusal :=
  let s' : State := { s with handshake := s.handshake.after e }
  match e.event? s.handshake with
  | some ev => s'.handle ev
  | none => .next s'

/-- Take the next port sample and run its edge. Where the host's list is at its end it offers nothing, and the state
holds, without any timeout (R159; log entry 2). -/
def State.advance (s : State) : Host.Outcome State Fault Refusal :=
  match s.input with
  | [] => .next s
  | e :: rest => ({ s with input := rest } : State).edge e

end Sys2Proof.Machine
end

