-- ==== Sys2Proof/Machine/Step.lean ====
section
/-! DEFINITION. The step: one rising edge of `clk`. -/

namespace Sys2Proof.Machine

/-- One rising edge of `clk` with the port values that stand next in `input` (R61, R150). -/
def step (s : State) : Host.Outcome State Fault Refusal := s.advance

/-- `s` with the word `w` offered, and the block ready for it, at the very next edge: the step then runs exactly that
command. There is no program memory: the host supplies commands on the port (R27, R51; log entry 1). -/
def State.withFetchWord (s : State) (nbits w : Nat) : State :=
  s.offerNext (BitVec.ofNat 10 (w % 2 ^ nbits))

end Sys2Proof.Machine
end

