-- ==== Sys2Proof/Machine/Assembly.lean ====
section
/-! DEFINITION. The assembler lines, the pseudo-instructions and the canonical disassembly (spec/30_encoding.md R66 to
R68). Text is a list of characters. What R66 leaves open about text is fixed in log entry 9. -/

namespace Sys2Proof.Machine

/-- The operand of `PUSH` as R66 lets it be written. -/
inductive PushOperand where
  /-- `0xHH`. -/
  | hex (c : Byte)
  /-- `'x'`. -/
  | chr (x : Char)
  /-- `d`, decimal. -/
  | dec (d : Nat)
  deriving DecidableEq, Repr

/-- One line of assembly: a command (R66) or a pseudo-instruction (R67). -/
inductive AsmLine where
  | nop
  | clr
  | push (o : PushOperand)
  | fin
  /-- `LOGIN "s"`. -/
  | login (s : List Char)
  /-- `LOGINB h0 h1 ... hk`. -/
  | loginb (bytes : List Byte)
  deriving DecidableEq, Repr

/-- A printable ASCII character, 0x20 to 0x7E (R66; PRESUMED, safe: log entry 9). -/
def printable (x : Char) : Bool := decide (0x20 ≤ x.toNat) && decide (x.toNat ≤ 0x7E)

/-- The byte of a character, its ASCII code (R66). -/
def byteOfChar (x : Char) : Byte := BitVec.ofNat 8 x.toNat

/-- An operand is legal when it stands for a byte: one printable character, or `d` in 0..255 (R66). -/
def PushOperand.wellFormed : PushOperand → Bool
  | .hex _ => true
  | .chr x => printable x
  | .dec d => decide (d ≤ 255)

/-- The byte an operand stands for (R66). -/
def PushOperand.byte : PushOperand → Byte
  | .hex c => c
  | .chr x => byteOfChar x
  | .dec d => BitVec.ofNat 8 d

/-- A line is legal when its operand is, and a `LOGIN` string is printable ASCII (R66, R67). -/
def AsmLine.wellFormed : AsmLine → Bool
  | .nop => true
  | .clr => true
  | .push o => o.wellFormed
  | .fin => true
  | .login s => s.all printable
  | .loginb _ => true

/-- `CLR`, then `PUSH` of each byte in order, then `FIN` (R67). -/
def loginCommands (bytes : List Byte) : List Instr :=
  .clr :: (bytes.map .push ++ [.fin])

/-- The commands a line stands for (R66, R67). -/
def AsmLine.commands : AsmLine → List Instr
  | .nop => [.nop]
  | .clr => [.clr]
  | .push o => [.push o.byte]
  | .fin => [.fin]
  | .login s => loginCommands (s.map byteOfChar)
  | .loginb bytes => loginCommands bytes

/-- The words of a line; an ill-formed line has none (R66, R67). -/
def AsmLine.assemble (a : AsmLine) : Option (List CmdWord) :=
  if a.wellFormed then some (a.commands.map encode) else none

/-- The upper-case hex digit of a number below 16. -/
def hexDigit (n : Nat) : Char := if n < 10 then Char.ofNat (0x30 + n) else Char.ofNat (0x37 + n)

/-- The value of a hex digit, of either case. -/
def hexValue (x : Char) : Option Nat :=
  if 0x30 ≤ x.toNat ∧ x.toNat ≤ 0x39 then some (x.toNat - 0x30)
  else if 0x41 ≤ x.toNat ∧ x.toNat ≤ 0x46 then some (x.toNat - 0x37)
  else if 0x61 ≤ x.toNat ∧ x.toNat ≤ 0x66 then some (x.toNat - 0x57)
  else none

/-- The byte of two hex digits. -/
def hexByte (h l : Char) : Option Byte :=
  match hexValue h, hexValue l with
  | some a, some b => some (BitVec.ofNat 8 (16 * a + b))
  | _, _ => none

/-- The canonical line of a command (R68). -/
def commandText : Instr → List Char
  | .nop => ['N', 'O', 'P']
  | .clr => ['C', 'L', 'R']
  | .push c => ['P', 'U', 'S', 'H', ' ', '0', 'x', hexDigit (c.toNat / 16), hexDigit (c.toNat % 16)]
  | .fin => ['F', 'I', 'N']

/-- Canonical disassembly (R68). -/
def disassemble (w : CmdWord) : List Char := commandText (decode w)

/-- The text without the blanks it begins with. -/
def skipBlanks : List Char → List Char
  | ' ' :: cs => skipBlanks cs
  | cs => cs

/-- Nothing but blanks and a comment is left: a `;` starts a comment to the end of the line (R66). -/
def atEnd (cs : List Char) : Bool :=
  match skipBlanks cs with
  | [] => true
  | x :: _ => decide (x = ';')

/-- The value of a run of decimal digits begun with `acc`, and the text after it. -/
def readDigits : Nat → List Char → Nat × List Char
  | acc, [] => (acc, [])
  | acc, x :: cs =>
    if 0x30 ≤ x.toNat ∧ x.toNat ≤ 0x39 then readDigits (10 * acc + (x.toNat - 0x30)) cs else (acc, x :: cs)

/-- The operand of `PUSH` and the text after it (R66). -/
def readOperand : List Char → Option (PushOperand × List Char)
  | '0' :: 'x' :: h :: l :: cs => (hexByte h l).map fun c => (.hex c, cs)
  | '\'' :: x :: '\'' :: cs => some (.chr x, cs)
  | x :: cs =>
    if 0x30 ≤ x.toNat ∧ x.toNat ≤ 0x39 then
      some (.dec (readDigits 0 (x :: cs)).1, (readDigits 0 (x :: cs)).2)
    else none
  | [] => none

/-- The characters up to the closing double quote, and the text after it. -/
def readQuoted : List Char → Option (List Char × List Char)
  | [] => none
  | x :: cs =>
    if x = '"' then some ([], cs) else (readQuoted cs).map fun p => (x :: p.1, p.2)

/-- Two-digit hex bytes, one blank or more before each, up to the end of the line (R67). -/
def readBytes : List Char → Option (List Byte)
  | ' ' :: h :: l :: cs =>
    if h = ' ' then readBytes (h :: l :: cs)
    else if atEnd (h :: l :: cs) then some []
    else match hexByte h l, readBytes cs with
      | some c, some r => some (c :: r)
      | _, _ => none
  | cs => if atEnd cs then some [] else none

/-- One line of assembly text: `none` if it is not of R66's or R67's form, `some none` if it is blank or a comment. -/
def readLine (text : List Char) : Option (Option AsmLine) :=
  if atEnd text then some none
  else match skipBlanks text with
    | 'N' :: 'O' :: 'P' :: cs => if atEnd cs then some (some .nop) else none
    | 'C' :: 'L' :: 'R' :: cs => if atEnd cs then some (some .clr) else none
    | 'F' :: 'I' :: 'N' :: cs => if atEnd cs then some (some .fin) else none
    | 'P' :: 'U' :: 'S' :: 'H' :: ' ' :: cs =>
      match readOperand (skipBlanks cs) with
      | some (o, rest) => if atEnd rest then some (some (.push o)) else none
      | none => none
    | 'L' :: 'O' :: 'G' :: 'I' :: 'N' :: 'B' :: cs => (readBytes cs).map fun bs => some (.loginb bs)
    | 'L' :: 'O' :: 'G' :: 'I' :: 'N' :: ' ' :: cs =>
      match skipBlanks cs with
      | '"' :: body =>
        match readQuoted body with
        | some (s, rest) => if atEnd rest then some (some (.login s)) else none
        | none => none
      | _ => none
    | _ => none

/-- The words of one line of text, none for a blank line; `none` where the line is refused (R66, R67). -/
def assembleLine (text : List Char) : Option (List CmdWord) :=
  match readLine text with
  | none => none
  | some none => some []
  | some (some a) => a.assemble

/-- The words of a program, one command a line (R66); a refused line refuses the program. -/
def assembleText : List (List Char) → Option (List CmdWord)
  | [] => some []
  | l :: ls =>
    match assembleLine l, assembleText ls with
    | some a, some b => some (a ++ b)
    | _, _ => none

end Sys2Proof.Machine
end

