-- ==== Sys2Proof/Safety.lean ====
section
/-! DEFINITION. The terms in which claims are made: the invariants of reachable states, runs of many steps, the login
that a history of events describes, and the host's duty to hold a command. -/

namespace Sys2Proof.Machine

/-- The invariants of R31, items 1 to 6 (item 1 holds by the type of `N`; item 7 is about history, see `Login`). -/
structure Regs.Inv (r : Regs) : Prop where
  /-- Item 2. -/
  flags_exclusive : ¬(r.done = true ∧ r.err = true)
  /-- Item 3. -/
  done_long : r.done = true → r.n = .four
  /-- Item 4. -/
  err_short : r.err = true → r.n ≠ .four
  /-- Item 5. -/
  v_zero : r.n ≠ .four → r.v = 0x00000000#32
  /-- Item 6. -/
  pre_zero : ∀ i : Fin 3, r.n.toNat ≤ i.val → r.pre i = 0x00#8

/-- `k` steps, stopping at the first fault or refusal. -/
def runSteps : Nat → State → Host.Outcome State Fault Refusal
  | 0, s => .next s
  | k + 1, s =>
    match step s with
    | .next t => runSteps k t
    | .fault r => .fault r
    | .refused r => .refused r

/-- The commands of a list, in order. -/
def execAll : List Instr → State → Host.Outcome State Fault Refusal
  | [], s => .next s
  | i :: is, s =>
    match exec i s with
    | .next t => execAll is t
    | .fault r => .fault r
    | .refused r => .refused r

/-- The events of a sequence of edges, in order (R48 item 1), begun with the handshake `h`. -/
def eventsOf : Handshake → List PortSample → List Event
  | _, [] => []
  | h, e :: es => (e.event? h).toList ++ eventsOf (h.after e) es

/-- The handshake after a sequence of edges. -/
def handshakeAfter : Handshake → List PortSample → Handshake
  | h, [] => h
  | h, e :: es => handshakeAfter (h.after e) es

/-- The event of the machine's next edge, if that edge has one. -/
def State.nextEvent (s : State) : Option Event := s.input.head?.bind fun e => e.event? s.handshake

/-- The events that are not a `NOP`. -/
def withoutNops (evs : List Event) : List Event := evs.filter fun ev => ev ≠ .command .nop

/-- The bytes pushed by a sequence of events. -/
def pushedBytes : List Event → List Byte
  | [] => []
  | .command (.push c) :: evs => c :: pushedBytes evs
  | _ :: evs => pushedBytes evs

/-- A step that starts an empty login: a reset or a `CLR` (R41, R121). -/
def Event.startsLogin (ev : Event) : Prop := ev = .reset ∨ ev = .command .clr

/-- A step that may stand inside a login: a `PUSH` or a `NOP` (R113). -/
def Event.insideLogin (ev : Event) : Prop := ev = .command .nop ∨ ∃ c, ev = .command (.push c)

/-- The beginning of a run that absorbs the bytes `L`: a `CLR` or reset, then `PUSH` and `NOP` commands only (R113). -/
def Absorbs (evs : List Event) (L : List Byte) : Prop :=
  ∃ start body, evs = start :: body ∧ start.startsLogin ∧ (∀ ev ∈ body, ev.insideLogin) ∧ L = pushedBytes body

/-- A run of R121 with the login `L`: it ends at the first `FIN` accepted in phase `ABSORB`. -/
def IsRun (evs : List Event) (L : List Byte) : Prop :=
  ∃ front, evs = front ++ [.command .fin] ∧ Absorbs front L

/-- The outcome a run with this result shows at the ports (R121): `(1, 0, Serial(L))` or `(0, 1, 0)`. -/
def CallResult.outcome : CallResult → Outputs
  | .serial v => { doneO := true, errO := false, serialO := v }
  | .failed .invalidInput => { doneO := false, errO := true, serialO := 0x00000000#32 }

/-- The login a history describes (R41): the bytes delivered since the last `CLR` or reset, and whether a `FIN` has
ended it. It keeps every byte, which the block does not. -/
structure Login where
  bytes : List Byte
  ended : Bool
  deriving DecidableEq, Repr

/-- The login before anything was delivered. -/
def Login.empty : Login where
  bytes := []
  ended := false

/-- What an event does to the login (R41, R110, R120, R136). -/
def Login.next (l : Login) : Event → Login
  | .reset => Login.empty
  | .command .nop => l
  | .command .clr => Login.empty
  | .command (.push c) => if l.ended then l else { l with bytes := l.bytes ++ [c] }
  | .command .fin => { l with ended := true }

/-- What an edge does to the login: nothing, if the edge has no event. -/
def Login.afterEdge (l : Login) : Option Event → Login
  | none => l
  | some ev => l.next ev

/-- The login after a history of events. -/
def Login.after (l : Login) : List Event → Login
  | [] => l
  | ev :: evs => (l.next ev).after evs

/-- The counter value of a length: it saturates at 4 (R23). -/
def Count.ofLength : Nat → Count
  | 0 => .zero
  | 1 => .one
  | 2 => .two
  | 3 => .three
  | _ + 4 => .four

/-- What the registers hold for a login: the table of R113, with the flags of R120. -/
def Login.image (l : Login) : Regs where
  v := if l.bytes.length < 4 then 0x00000000#32 else foldAll (seed (l.bytes.getD 3 0)) l.bytes
  pre0 := l.bytes.getD 0 0
  pre1 := l.bytes.getD 1 0
  pre2 := l.bytes.getD 2 0
  n := Count.ofLength l.bytes.length
  done := l.ended && decide (4 ≤ l.bytes.length)
  err := l.ended && decide (l.bytes.length < 4)

/-- The host's duty of R154: a command offered and not yet accepted is offered again, unchanged, at the next edge. -/
def HostHoldsCommand : Handshake → List PortSample → Prop
  | _, [] => True
  | _, [_] => True
  | h, a :: b :: rest =>
    (a.cmdValid = true → a.cmdReady h = false → b.cmdValid = true ∧ b.cmd = a.cmd) ∧
      HostHoldsCommand (h.after a) (b :: rest)

/-- No fold of the bytes `L` from `v` on carries out of bit 31 (R84 item 1, R88). -/
def NoWrap : Word → List Byte → Prop
  | _, [] => True
  | v, c :: cs => v.toNat + (umodK (xor32 v (zext32 c))).toNat < 2 ^ 32 ∧ NoWrap (fold v c) cs

end Sys2Proof.Machine
end

