-- ==== Sys2Proof/Certificates/Slice0/Obligations.lean ====
section
/-! DEFINITION. The statements for the provers. Each docstring says which rule of spec/ the statement formalises, or
which sections it is derived from. -/

open Sys2Proof Sys2Proof.Machine

/-! ## The command word -/

/-- 95_test_vectors.md section 4: the encoding vectors. -/
def Obligations.EncodingVectorsDecode : Prop :=
  decode 0x000#10 = .nop ∧ decode 0x0AA#10 = .nop ∧ decode 0x0FF#10 = .nop ∧
  decode 0x100#10 = .clr ∧ decode 0x1FF#10 = .clr ∧
  decode 0x200#10 = .push 0x00#8 ∧ decode 0x261#10 = .push 0x61#8 ∧
  decode 0x280#10 = .push 0x80#8 ∧ decode 0x2FF#10 = .push 0xFF#8 ∧
  decode 0x300#10 = .fin ∧ decode 0x3C3#10 = .fin ∧ decode 0x3FF#10 = .fin

/-- R62: the opcode map. A word is the command of a row exactly when `(w & mask) = match`, which is a condition on
`cmd[9:8]` alone, and every word is the command of some row. -/
def Obligations.EveryWordIsTheCommandOfItsRow : Prop :=
  ∀ w : CmdWord,
    (w &&& 0x300#10 = 0x000#10 ↔ decode w = .nop) ∧ (opField w = 0b00#2 ↔ decode w = .nop) ∧
    (w &&& 0x300#10 = 0x100#10 ↔ decode w = .clr) ∧ (opField w = 0b01#2 ↔ decode w = .clr) ∧
    (w &&& 0x300#10 = 0x200#10 ↔ decode w = .push (dataField w)) ∧
    (opField w = 0b10#2 ↔ decode w = .push (dataField w)) ∧
    (w &&& 0x300#10 = 0x300#10 ↔ decode w = .fin) ∧ (opField w = 0b11#2 ↔ decode w = .fin) ∧
    (decode w = .nop ∨ decode w = .clr ∨ decode w = .push (dataField w) ∨ decode w = .fin)

/-- R63: the operand of `PUSH` is `zext_32(cmd[7:0])`, and every byte is some word's operand. -/
def Obligations.PushOperandIsTheZeroExtendedByte : Prop :=
  (∀ w : CmdWord, opField w = 0b10#2 →
    ∃ c, decode w = .push c ∧ (zext32 c).toNat = w.toNat % 256 ∧ c.getLsbD 7 = w.getLsbD 7) ∧
  (∀ c : Byte, ∃ w, decode w = .push c)

/-- R64: the field `data` of NOP, CLR and FIN is ignored by the decoder, by the step and by the disassembler, the
canonical words have `data = 0x00`, and no word fails to run. -/
def Obligations.IgnoredDataHasNoEffect : Prop :=
  (∀ (op : BitVec 2) (d d' : Byte), op ≠ 0b10#2 →
    decode (formatC op d) = decode (formatC op d') ∧
    disassemble (formatC op d) = disassemble (formatC op d') ∧
    encode (decode (formatC op d)) = formatC op 0x00#8 ∧
    ∀ s : State, step (s.offerNext (formatC op d)) = step (s.offerNext (formatC op d'))) ∧
  encode .nop = 0x000#10 ∧ encode .clr = 0x100#10 ∧ encode .fin = 0x300#10 ∧
  ∀ (w : CmdWord) (s : State), ∃ t, step (s.offerNext w) = .next t

/-- Derived from R60, R62 and R64: decoding the encoded word of any command gives the command back, `PUSH` with each of
the 256 bytes. -/
def Obligations.DecodeOfEncodeIsTheCommand : Prop := ∀ i : Instr, decode (encode i) = i

/-- R68: canonical disassembly, and what assembling it gives. -/
def Obligations.DisassemblyReassembles : Prop :=
  let digits : List Char :=
    ['0', '1', '2', '3', '4', '5', '6', '7', '8', '9', 'A', 'B', 'C', 'D', 'E', 'F']
  ∀ w : CmdWord,
    (opField w = 0b00#2 → disassemble w = ['N', 'O', 'P']) ∧
    (opField w = 0b01#2 → disassemble w = ['C', 'L', 'R']) ∧
    (opField w = 0b10#2 → disassemble w = ['P', 'U', 'S', 'H', ' ', '0', 'x',
      digits.getD ((dataField w).toNat / 16) ' ', digits.getD ((dataField w).toNat % 16) ' ']) ∧
    (opField w = 0b11#2 → disassemble w = ['F', 'I', 'N']) ∧
    assembleLine (disassemble w) = some [encode (decode w)] ∧
    decode (encode (decode w)) = decode w ∧
    (encode (decode w) = w ↔ opField w = 0b10#2 ∨ dataField w = 0x00#8)

/-- Derived from the table of 30_encoding.md section 6: the word of each operand form of `PUSH`, the operands that are
no byte, and the comment. The printable range is the model's reading (log entry 9). -/
def Obligations.AssemblerWords : Prop :=
  AsmLine.nop.assemble = some [0x000#10] ∧
  AsmLine.clr.assemble = some [0x100#10] ∧
  AsmLine.fin.assemble = some [0x300#10] ∧
  (∀ c : Byte, (AsmLine.push (.hex c)).assemble = some [0x200#10 + c.setWidth 10]) ∧
  (∀ d : Nat, d ≤ 255 → (AsmLine.push (.dec d)).assemble = some [0x200#10 + BitVec.ofNat 10 d]) ∧
  (∀ d : Nat, 255 < d → (AsmLine.push (.dec d)).assemble = none) ∧
  (∀ x : Char, 0x20 ≤ x.toNat → x.toNat ≤ 0x7E →
    (AsmLine.push (.chr x)).assemble = some [0x200#10 + BitVec.ofNat 10 x.toNat]) ∧
  (∀ text : List Char, assembleLine (';' :: text) = some [])

/-- Derived from R67: the expansions of `LOGIN` and `LOGINB`, and after the last word the outputs give the call's result.
The range 0x20 to 0x7E of the printable characters of a `LOGIN` string is the model's reading (log entry 9). -/
def Obligations.LoginPseudoInstructionIsOneCall : Prop :=
  (∀ L : List Byte, (AsmLine.loginb L).commands = .clr :: (L.map .push ++ [.fin])) ∧
  (∀ cs : List Char, (∀ x ∈ cs, 0x20 ≤ x.toNat ∧ x.toNat ≤ 0x7E) →
    (AsmLine.login cs).assemble =
      (AsmLine.loginb (cs.map fun x => BitVec.ofNat 8 x.toNat)).assemble) ∧
  (∀ L ws (s : State) rest, (AsmLine.loginb L).assemble = some ws →
    s.input = ws.map PortSample.offer ++ rest →
    ∃ t, runSteps ws.length s = .next t ∧ t.regs.outputs = (serial L).outcome ∧ t.input = rest) ∧
  exec .clr State.reset = .next State.reset

/-! ## Ports, acceptance, reset -/

/-- R61: an accepted word runs as the command it decodes to; without acceptance the registers keep their values. -/
def Obligations.StepRunsTheAcceptedCommand : Prop :=
  ∀ (s : State) (e : PortSample) (rest : List PortSample), s.input = e :: rest → e.rst = false →
    (e.cmdValid = true ∧ e.cmdReady s.handshake = true →
      step s = exec (decode e.cmd) { regs := s.regs, handshake := .working, input := rest }) ∧
    (e.cmdValid = false ∨ e.cmdReady s.handshake = false →
      ∃ t, step s = .next t ∧ t.regs = s.regs ∧ t.input = rest)

/-- Derived from R61 and R51: a word the table's decoder reads, offered next, is the command the very next step runs
(how a program comes to run is the model's choice, log entry 1). -/
def Obligations.OfferedTableWordRunsFirst : Prop :=
  ∀ (s : State) (nbits w : Nat) (i : Instr), decodeTableWord nbits w = some i →
    step (s.withFetchWord nbits w) = exec i { s with handshake := .working }

/-- Derived from 70_reset_and_hazards.md section 5 (the row "wait"): a host that offers nothing leaves the state as it
is. The empty list standing for such a host is the model's choice (log entry 2). -/
def Obligations.SilentHostChangesNothing : Prop :=
  ∀ s : State, s.input = [] → step s = .next s

/-- R151: in a cycle with `rst = 1` the reset step happens and nothing else, whatever is offered and whether or not the
block is busy. -/
def Obligations.ResetWinsOverAnyCommand : Prop :=
  ∀ (s : State) (e : PortSample) (rest : List PortSample), s.input = e :: rest → e.rst = true →
    e.accepts s.handshake = false ∧
    step s = .next
      { regs := { v := 0#32, pre0 := 0#8, pre1 := 0#8, pre2 := 0#8, n := .zero, done := false, err := false }
        handshake := .afterReset
        input := rest }

/-- Derived from 70_reset_and_hazards.md section 1: the reset step is the same state transformation as `CLR`, and
`cmd_ready` is low while `rst = 1`. -/
def Obligations.ResetStepEqualsClr : Prop :=
  (∀ s : State, s.handle .reset = exec .clr s) ∧
  (∀ (e : PortSample) (h : Handshake), e.rst = true → e.cmdReady h = false) ∧
  (∀ s : State, ∃ t, s.handle .reset = .next t ∧ t.regs = State.reset.regs ∧ t.handshake = s.handshake ∧
    t.input = s.input)

/-- R150: at an edge with `rst = 1` every register takes its reset value, as by `CLR`, and `cmd_ready` is low. After the
first edge with `rst = 0`, at which no command was accepted, the block drives `cmd_ready = 1`, and it does so for every
number of edges, whatever `busy` says there, until it accepts a command or is reset. -/
def Obligations.ResetStepThenReady : Prop :=
  (∀ (s : State) (e : PortSample) (rest : List PortSample), s.input = e :: rest → e.rst = true →
    e.cmdReady s.handshake = false ∧
    ∃ t, step s = .next t ∧ t.handshake = .afterReset ∧ t.input = rest ∧
      t.regs = { v := 0#32, pre0 := 0#8, pre1 := 0#8, pre2 := 0#8, n := .zero, done := false, err := false } ∧
      exec .clr s = .next { s with regs := t.regs }) ∧
  (∀ (s : State) (b : PortSample) (xs rest : List PortSample), s.handshake = .afterReset →
    s.input = (b :: xs) ++ rest → b.rst = false → b.accepts .afterReset = false →
    (∀ e ∈ xs, e.rst = false ∧ e.cmdValid = false) →
    ∃ t, runSteps (b :: xs).length s = .next t ∧ t.regs = s.regs ∧ t.input = rest ∧
      ∀ c : PortSample, c.rst = false → c.cmdReady t.handshake = true)

/-- Derived from R29, R155 and R158: `cmd_ready` is low only in reset, or where the block may still be working on a command
it accepted or has just been reset, and an edge at which a working block is ready and nothing is accepted leaves it
ready. That `busy` decides at the first edge after reset is the model's choice (log entry 15). -/
def Obligations.ReadyUnlessWorkingOrInReset : Prop :=
  (∀ (e : PortSample) (h : Handshake), e.cmdReady h = false →
    e.rst = true ∨ (e.busy = true ∧ (h = .working ∨ h = .afterReset))) ∧
  (∀ s t : State, step s = .next t → t.handshake = .working → s.handshake ≠ .working →
    ∃ i, s.nextEvent = some (.command i)) ∧
  (∀ (s t : State) (e : PortSample) (rest : List PortSample), s.input = e :: rest → step s = .next t →
    e.cmdReady s.handshake = true → e.cmdValid = false → t.handshake = .idle)

/-- R32: every register is zero after reset, and so the phase and the outputs. -/
def Obligations.ResetLeavesEveryRegisterZero : Prop :=
  State.reset.regs.v = 0#32 ∧ State.reset.regs.pre0 = 0#8 ∧ State.reset.regs.pre1 = 0#8 ∧
  State.reset.regs.pre2 = 0#8 ∧ State.reset.regs.n = .zero ∧ State.reset.regs.done = false ∧
  State.reset.regs.err = false ∧ State.reset.regs.phase = some .absorb ∧
  State.reset.regs.outputs = { doneO := false, errO := false, serialO := 0#32 }

/-- Derived from R29 and R155: the outputs as functions of the registers, shown exactly while `cmd_ready = 1`; "no value"
while it is 0 is what R155 tells a model to give them (log entry 6). `cmd_ready` of an idle block is 1 at every edge
without reset; that the bit `busy` decides it for a working block is the model's choice (log entry 3). Nothing is said of
the first edge after reset, where the spec states no value (log entry 15). -/
def Obligations.OutputsAreGatedAndShownWhileReady : Prop :=
  (∀ r : Regs, r.outputs.doneO = r.done ∧ r.outputs.errO = r.err ∧
    (r.done = true → r.outputs.serialO = r.v) ∧ (r.done = false → r.outputs.serialO = 0#32)) ∧
  (∀ (s : State) (e : PortSample), e.cmdReady s.handshake = true → s.observe e = some s.regs.outputs) ∧
  (∀ (s : State) (e : PortSample), e.cmdReady s.handshake = false → s.observe e = none) ∧
  (∀ e : PortSample, e.rst = false → e.cmdReady .idle = true) ∧
  (∀ e : PortSample, e.rst = false → (e.cmdReady .working = true ↔ e.busy = false))

/-- Derived from R26: the phase as a function of the two flags. R26 calls the pair 11 not reachable; that it has no phase
is the model's reading (log entry 5). -/
def Obligations.PhaseIsAFunctionOfTheFlags : Prop :=
  ∀ r : Regs,
    (r.phase = some .absorb ↔ r.done = false ∧ r.err = false) ∧
    (r.phase = some .done ↔ r.done = true ∧ r.err = false) ∧
    (r.phase = some .fail ↔ r.done = false ∧ r.err = true) ∧
    (r.phase = none ↔ r.done = true ∧ r.err = true)

/-- Derived from 70_reset_and_hazards.md section 4 (liveness) and 93 section 2: every command and every step answers a
next state, from every state. -/
def Obligations.EveryStepAnswersANextState : Prop :=
  (∀ (i : Instr) (s : State), ∃ t, exec i s = .next t ∧ t.handshake = s.handshake ∧ t.input = s.input) ∧
  (∀ s : State, ∃ t, step s = .next t ∧ t.input = s.input.tail)

/-! ## The four commands -/

/-- R100: `NOP`, with any `data`, changes nothing in any phase. -/
def Obligations.NopChangesNothing : Prop :=
  ∀ (d : Byte) (s : State),
    decode (formatC 0b00#2 d) = .nop ∧ encode .nop = 0x000#10 ∧ exec .nop s = .next s

/-- R101: `CLR`, with any `data`, writes zero to every register in every phase, which is the reset state. -/
def Obligations.ClrLeavesTheResetState : Prop :=
  ∀ (d : Byte) (s : State),
    decode (formatC 0b01#2 d) = .clr ∧ encode .clr = 0x100#10 ∧
    exec .clr s = .next
      { regs := { v := 0#32, pre0 := 0#8, pre1 := 0#8, pre2 := 0#8, n := .zero, done := false, err := false }
        handshake := s.handshake
        input := s.input } ∧
    exec .clr s = .next { s with regs := State.reset.regs }

/-- R110: `PUSH c` by its pseudocode. -/
def Obligations.PushAbsorbsOneByte : Prop :=
  ∀ (c : Byte) (s : State),
    decode (formatC 0b10#2 c) = .push c ∧ encode (.push c) = 0x200#10 + c.setWidth 10 ∧
    exec (.push c) s = .next
      (if s.regs.done = true ∨ s.regs.err = true then s
       else match s.regs.n with
        | .zero => { s with regs := { s.regs with pre0 := c, n := .one } }
        | .one => { s with regs := { s.regs with pre1 := c, n := .two } }
        | .two => { s with regs := { s.regs with pre2 := c, n := .three } }
        | .three =>
          let t0 := fold (seed c) s.regs.pre0
          let t1 := fold t0 s.regs.pre1
          let t2 := fold t1 s.regs.pre2
          { s with regs := { s.regs with v := fold t2 c, n := .four } }
        | .four => { s with regs := { s.regs with v := fold s.regs.v c } })

/-- R120: `FIN` by its pseudocode, with any `data`; the phase test comes before the length test. On a register state
that keeps the invariants, InvalidInput leaves `V` at 0. -/
def Obligations.FinPublishesOrRaises : Prop :=
  ∀ (d : Byte) (s : State),
    decode (formatC 0b11#2 d) = .fin ∧ encode .fin = 0x300#10 ∧
    exec .fin s = .next
      (if s.regs.done = true ∨ s.regs.err = true then s
       else if s.regs.n = .four then { s with regs := { s.regs with done := true } }
       else { s with regs := { s.regs with err := true } }) ∧
    (s.regs.Inv → s.regs.n ≠ .four → ∃ t, exec .fin s = .next t ∧ t.regs.v = 0#32 ∧ t.regs.outputs.serialO = 0#32)

/-- Derived from R100 and R101: the frame of the control commands. `CLR` writes every register, so only the
handshake and the host's samples are left of the state before. -/
def Obligations.ControlCommandFrame : Prop :=
  (∀ s t : State, exec .nop s = .next t → t.regs = s.regs ∧ t.handshake = s.handshake ∧ t.input = s.input) ∧
  (∀ s t : State, exec .clr s = .next t → t.handshake = s.handshake ∧ t.input = s.input)

/-- Derived from R110: what `PUSH` leaves unchanged. -/
def Obligations.PushFrame : Prop :=
  ∀ (c : Byte) (s t : State), exec (.push c) s = .next t →
    t.handshake = s.handshake ∧ t.input = s.input ∧ t.regs.done = s.regs.done ∧ t.regs.err = s.regs.err ∧
    (∀ i : Fin 3, s.regs.n.toNat ≠ i.val → t.regs.pre i = s.regs.pre i) ∧
    (s.regs.n.toNat < 3 → t.regs.v = s.regs.v) ∧
    (s.regs.n = .four → t.regs.n = s.regs.n) ∧
    (s.regs.done = true ∨ s.regs.err = true → t.regs = s.regs)

/-- Derived from R120: what `FIN` leaves unchanged. -/
def Obligations.FinFrame : Prop :=
  ∀ s t : State, exec .fin s = .next t →
    t.handshake = s.handshake ∧ t.input = s.input ∧ t.regs.v = s.regs.v ∧ t.regs.n = s.regs.n ∧
    (∀ i : Fin 3, t.regs.pre i = s.regs.pre i) ∧
    (s.regs.n = .four → t.regs.err = s.regs.err) ∧
    (s.regs.n ≠ .four → t.regs.done = s.regs.done) ∧
    (s.regs.done = true ∨ s.regs.err = true → t.regs = s.regs)

/-- Derived from 20_memory.md section 4: `NOP`, `CLR` and `FIN` are idempotent and `PUSH` is not. -/
def Obligations.IdempotentCommands : Prop :=
  (∀ i : Instr, i = .nop ∨ i = .clr ∨ i = .fin →
    ∀ s : State, ∃ t, exec i s = .next t ∧ exec i t = .next t) ∧
  (∃ (c : Byte) (s t u : State), exec (.push c) s = .next t ∧ exec (.push c) t = .next u ∧ t ≠ u)

/-- R102: the table of phases, commands and reset. -/
def Obligations.PhaseTransitionTable : Prop :=
  (∀ s : State, exec .nop s = .next s) ∧
  (∀ s : State, ∃ t, exec .clr s = .next t ∧ t.regs.phase = some .absorb ∧ t.regs.n = .zero) ∧
  (∀ s : State, ∃ t, s.handle .reset = .next t ∧ t.regs.phase = some .absorb ∧ t.regs.n = .zero) ∧
  (∀ s : State, s.regs.phase = some .absorb → s.regs.n ≠ .four →
    (∀ c, ∃ t, exec (.push c) s = .next t ∧ t.regs.phase = some .absorb ∧
      t.regs.n.toNat = s.regs.n.toNat + 1) ∧
    (∃ t, exec .fin s = .next t ∧ t.regs.phase = some .fail)) ∧
  (∀ s : State, s.regs.phase = some .absorb → s.regs.n = .four →
    (∀ c, ∃ t, exec (.push c) s = .next t ∧ t.regs.phase = some .absorb ∧ t.regs.n = .four) ∧
    (∃ t, exec .fin s = .next t ∧ t.regs.phase = some .done)) ∧
  (∀ s : State, s.regs.phase = some .done ∨ s.regs.phase = some .fail →
    (∀ c, exec (.push c) s = .next s) ∧ exec .fin s = .next s)

/-! ## The flags, the counter, the failure -/

/-- R133: entry to InvalidInput is `ERR <- 1` and nothing else; `V` stays 0 in a state that keeps the invariants. -/
def Obligations.InvalidInputEntrySetsOnlyErr : Prop :=
  ∀ s : State, s.regs.Inv → s.regs.phase = some .absorb → s.regs.n ≠ .four →
    ∃ t, exec .fin s = .next t ∧ t = { s with regs := { s.regs with err := true } } ∧
      t.regs.done = false ∧ t.regs.v = 0#32 ∧
      t.regs.outputs = { doneO := false, errO := true, serialO := 0#32 }

/-- R131: `ERR` is the whole record of the cause; its code is 1, and 0 means none. -/
def Obligations.CauseIsRecordedInErr : Prop :=
  ∀ r : Regs,
    (r.err = true → r.cause = some .invalidInput ∧ r.causeCode = 1) ∧
    (r.err = false → r.cause = none ∧ r.causeCode = 0)

/-- R24: what sets `DONE`, what clears it, and `V` while it is 1. -/
def Obligations.DoneIsSetOnlyByFin : Prop :=
  (∀ s t : State, step s = .next t → s.regs.done = false →
    (t.regs.done = true ↔
      s.nextEvent = some (.command .fin) ∧ s.regs.phase = some .absorb ∧ s.regs.n = .four)) ∧
  (∀ s t : State, step s = .next t → s.regs.done = true →
    (t.regs.done = false ↔ ∃ ev, s.nextEvent = some ev ∧ ev.startsLogin)) ∧
  (∀ s t : State, step s = .next t → s.regs.done = true → t.regs.done = true → t.regs.v = s.regs.v) ∧
  (∀ l : Login, l.image.done = true → l.ended = true ∧ serial l.bytes = .serial l.image.v)

/-- R25: what sets `ERR`, and what clears it. -/
def Obligations.ErrIsSetOnlyByAShortFin : Prop :=
  (∀ s t : State, step s = .next t → s.regs.err = false →
    (t.regs.err = true ↔
      s.nextEvent = some (.command .fin) ∧ s.regs.phase = some .absorb ∧ s.regs.n.toNat < 4)) ∧
  (∀ s t : State, step s = .next t → s.regs.err = true →
    (t.regs.err = false ↔ ∃ ev, s.nextEvent = some ev ∧ ev.startsLogin))

/-- R143: a `PUSH` or `FIN` after the end of a login raises nothing and changes nothing, and no value of `data` is an
error. -/
def Obligations.CommandsAfterTheEndAreIgnored : Prop :=
  (∀ (c : Byte) (s : State), s.regs.done = true ∨ s.regs.err = true →
    exec (.push c) s = .next s ∧ exec .fin s = .next s) ∧
  (∀ d : Byte, decode (formatC 0b00#2 d) = .nop ∧ decode (formatC 0b01#2 d) = .clr ∧
    decode (formatC 0b11#2 d) = .fin)

/-- R122 and R137: once a login has ended, any number of edges without a `CLR` or reset leaves every register, and so
the outcome and the sticky `ERR`, as they are. -/
def Obligations.OutcomeStandsUntilClrOrReset : Prop :=
  ∀ (s : State) (xs rest : List PortSample), s.input = xs ++ rest →
    s.regs.done = true ∨ s.regs.err = true →
    (∀ ev ∈ eventsOf s.handshake xs, ¬ ev.startsLogin) →
    ∃ t, runSteps xs.length s = .next t ∧ t.regs = s.regs ∧ t.input = rest

/-- Derived from R22 and R42: a prefix register changes in a step only by the `PUSH` accepted with `N` at its index,
which stores its byte there, or by `CLR` or reset, which clear it. -/
def Obligations.PrefixBufferIsWrittenAtTheCounter : Prop :=
  ∀ (s t : State) (i : Fin 3), step s = .next t → t.regs.pre i ≠ s.regs.pre i →
    (s.nextEvent = some (.command (.push (t.regs.pre i))) ∧ s.regs.phase = some .absorb ∧
      s.regs.n.toNat = i.val) ∨
    (∃ ev, s.nextEvent = some ev ∧ ev.startsLogin ∧ t.regs.pre i = 0#8)

/-- Derived from R23 and R27: `PUSH` in phase `ABSORB` sets `N <- min(N + 1, 4)`, and no value above 4 exists. -/
def Obligations.CounterCountsAndSaturates : Prop :=
  (∀ (c : Byte) (s : State), s.regs.phase = some .absorb →
    ∃ t, exec (.push c) s = .next t ∧ t.regs.n.toNat = min (s.regs.n.toNat + 1) 4) ∧
  (∀ r : Regs, r.n.toNat ≤ 4) ∧
  (∀ (s : State) (xs rest : List PortSample) (L : List Byte), s.input = xs ++ rest →
    Absorbs (eventsOf s.handshake xs) L →
    ∃ t, runSteps xs.length s = .next t ∧ t.regs.n.toNat = min L.length 4)

/-! ## The datapath -/

/-- R81: a widened byte is the number 0..255 with bits 31..8 zero. -/
def Obligations.ByteIsWidenedWithoutSign : Prop :=
  ∀ b : Byte, (zext32 b).toNat = b.toNat ∧ (zext32 b).toNat ≤ 255 ∧
    (∀ i : Nat, 8 ≤ i → (zext32 b).getLsbD i = false) ∧
    (∀ i : Nat, i < 8 → (zext32 b).getLsbD i = b.getLsbD i)

/-- R82: addition wraps modulo 2^32, with the two examples of the rule. -/
def Obligations.AdditionWrapsModulo32Bits : Prop :=
  (∀ a b : Word, (add32 a b).toNat = (a.toNat + b.toNat) % 2 ^ 32) ∧
  add32 0xFFFFFFFF#32 0x00000210#32 = 0x0000020F#32 ∧
  add32 0x005F0140#32 0x00000471#32 = 0x005F05B1#32

/-- R89: exclusive or bit by bit, and with a widened byte. -/
def Obligations.XorIsBitwise : Prop :=
  (∀ (a b : Word) (i : Nat), i < 32 →
    ((xor32 a b).getLsbD i = true ↔ a.getLsbD i ≠ b.getLsbD i)) ∧
  (∀ (v : Word) (c : Byte) (i : Nat), 8 ≤ i → (xor32 v (zext32 c)).getLsbD i = v.getLsbD i) ∧
  (∀ (v : Word) (c : Byte), (xor32 v (zext32 c)).setWidth 8 = v.setWidth 8 ^^^ c)

/-- R85: the remainder is the unique one of unsigned division by 1337. -/
def Obligations.RemainderIsUnsignedAndUnique : Prop :=
  (∀ a : Word, (umodK a).toNat ≤ 1336 ∧ ∃ q : Nat, a.toNat = 1337 * q + (umodK a).toNat) ∧
  (∀ (a : Word) (q r : Nat), r ≤ 1336 → a.toNat = 1337 * q + r → (umodK a).toNat = r) ∧
  umodK 0xFFFFFFFF#32 = 528#32 ∧ 2 ^ 32 % 1337 = 529 ∧ 1337 = 7 * 191

/-- R83: the seed, its range, that its addition never wraps, and that it is injective. -/
def Obligations.SeedFormulaAndRange : Prop :=
  (∀ b : Byte, seed b = (b.setWidth 32 ^^^ 0x00001337#32) + 6221293#32) ∧
  (∀ b : Byte, 4864 ≤ (xor32 (zext32 b) 0x1337#32).toNat ∧ (xor32 (zext32 b) 0x1337#32).toNat ≤ 5119 ∧
    (seed b).toNat = (xor32 (zext32 b) 0x1337#32).toNat + 6221293) ∧
  (∀ b : Byte, 6226157 ≤ (seed b).toNat ∧ (seed b).toNat ≤ 6226412) ∧
  (∀ b b' : Byte, seed b = seed b' → b = b') ∧
  seed 0x37#8 = 6226157#32 ∧ seed 0xC8#8 = 6226412#32 ∧ seed 0x64#8 = 6226240#32

/-- Derived from the formula and from consequences 1 to 3 of R84, and the first half of its consequence 4: the fold,
when it wraps, when it leaves `v` unchanged, and that it is not injective in `v`. -/
def Obligations.FoldFormulaAndWrap : Prop :=
  (∀ (v : Word) (c : Byte), fold v c = v + BitVec.ofNat 32 ((v ^^^ c.setWidth 32).toNat % 1337)) ∧
  (∀ (v : Word) (c : Byte),
    let m := (v ^^^ c.setWidth 32).toNat % 1337
    (v.toNat + m < 2 ^ 32 → (fold v c).toNat = v.toNat + m ∧ (fold v c).toNat - v.toNat ≤ 1336) ∧
    (2 ^ 32 ≤ v.toNat + m → (fold v c).toNat + 2 ^ 32 = v.toNat + m ∧ 0xFFFFFAC8 ≤ v.toNat)) ∧
  (∀ (v : Word) (c : Byte), fold v c = v ↔ 1337 ∣ (v ^^^ c.setWidth 32).toNat) ∧
  fold 0x005F0140#32 0x61#8 = 0x005F05B1#32 ∧
  (∃ (v v' : Word) (c : Byte), v ≠ v' ∧ fold v c = fold v' c)

/-- Derived from the formula of R84: for one `v`, different bytes give different folds. The second half of R84's
consequence 4 says otherwise; the formula decides (log entry 10). -/
def Obligations.FoldSeparatesBytes : Prop :=
  ∀ (v : Word) (c c' : Byte), fold v c = fold v c' → c = c'

/-- R87: the fold of a sequence, first byte first, and its splitting law. -/
def Obligations.FoldAllSplits : Prop :=
  (∀ v : Word, foldAll v [] = v) ∧
  (∀ (v : Word) (c : Byte) (cs : List Byte), foldAll v (c :: cs) = foldAll (fold v c) cs) ∧
  (∀ (v : Word) (A B : List Byte), foldAll v (A ++ B) = foldAll (foldAll v A) B)

/-- R86: the reference function, and its worked example. -/
def Obligations.SerialIsSeedThenFoldAll : Prop :=
  (∀ L : List Byte, L.length < 4 → serial L = .failed .invalidInput) ∧
  (∀ (b0 b1 b2 b3 : Byte) (more : List Byte),
    serial (b0 :: b1 :: b2 :: b3 :: more) =
      .serial (foldAll (seed b3) (b0 :: b1 :: b2 :: b3 :: more))) ∧
  serial [0x61#8, 0x62#8, 0x63#8, 0x64#8] = .serial 6230372#32

/-- R88: the bounds of the serial where no fold wraps, that none wraps for logins of at most 3210135 bytes, the range for
logins a 255-character buffer can hold, and the collision. -/
def Obligations.SerialBounds : Prop :=
  (∀ (L : List Byte) (v : Word), 4 ≤ L.length → NoWrap (seed (L.getD 3 0)) L → serial L = .serial v →
    (seed (L.getD 3 0)).toNat ≤ v.toNat ∧ v.toNat ≤ (seed (L.getD 3 0)).toNat + 1336 * L.length) ∧
  (∀ L : List Byte, 4 ≤ L.length → 6226412 + 1336 * L.length < 2 ^ 32 → NoWrap (seed (L.getD 3 0)) L) ∧
  (∀ n : Nat, n ≤ 3210135 ↔ 6226412 + 1336 * n < 2 ^ 32) ∧
  (∀ L : List Byte, 4 ≤ L.length → L.length ≤ 255 →
    ∃ v, serial L = .serial v ∧ 6226157 ≤ v.toNat ∧ v.toNat ≤ 6567092) ∧
  serial [0x80#8, 0xFF#8, 0x80#8, 0xFF#8] = .serial 6230692#32 ∧
  serial [0xFF#8, 0xFF#8, 0xFF#8, 0xFF#8] = .serial 6230692#32

/-! ## The whole machine -/

/-- Derived from R31 and R32: the invariants hold after reset. -/
def Obligations.InvariantsHoldAtReset : Prop := State.reset.regs.Inv

/-- Derived from R31 items 1 to 6: every step keeps the invariants, from every state that has them. -/
def Obligations.EveryStepKeepsTheInvariants : Prop :=
  ∀ s t : State, s.regs.Inv → step s = .next t → t.regs.Inv

/-- R113: after a `CLR` or reset and the bytes `A`, with `NOP`s and edges without acceptance anywhere, the registers are
those of the table. -/
def Obligations.StateIsAFunctionOfTheBytesAbsorbed : Prop :=
  ∀ (s : State) (xs rest : List PortSample) (A : List Byte), s.input = xs ++ rest →
    Absorbs (eventsOf s.handshake xs) A →
    ∃ t, runSteps xs.length s = .next t ∧ t.input = rest ∧
      t.regs = match A with
          | [] => { v := 0#32, pre0 := 0#8, pre1 := 0#8, pre2 := 0#8, n := .zero, done := false, err := false }
          | [a0] => { v := 0#32, pre0 := a0, pre1 := 0#8, pre2 := 0#8, n := .one, done := false, err := false }
          | [a0, a1] => { v := 0#32, pre0 := a0, pre1 := a1, pre2 := 0#8, n := .two, done := false, err := false }
          | [a0, a1, a2] => { v := 0#32, pre0 := a0, pre1 := a1, pre2 := a2, n := .three, done := false, err := false }
          | a0 :: a1 :: a2 :: a3 :: _ =>
            { v := foldAll (seed a3) A, pre0 := a0, pre1 := a1, pre2 := a2, n := .four, done := false, err := false }

/-- Derived from R31, R41, R113 and R120: the block refines the login it is given. Where the registers hold the image of
a login, one step leaves them holding the image of the login after that edge, and the reset state is the image of the
empty login. Hence item 7 of R31 after every history. -/
def Obligations.BlockRefinesTheLogin : Prop :=
  State.reset.regs = Login.empty.image ∧
  (∀ (l : Login) (s : State), s.regs = l.image →
    ∃ t, step s = .next t ∧ t.regs = (l.afterEdge s.nextEvent).image) ∧
  (∀ (s : State) (xs rest : List PortSample), s.regs = State.reset.regs → s.input = xs ++ rest →
    ∃ t, runSteps xs.length s = .next t ∧ t.input = rest ∧
      t.regs = (Login.empty.after (eventsOf s.handshake xs)).image)

/-- R114: the hardware computes `calculate_serial`. From every state, over every sequence of edges whose events are a
run with the login `L`, `NOP`s and edges without acceptance anywhere, the outputs at its end are the outcome. A reset in
place of the `CLR` is R121's other beginning of a run. -/
def Obligations.BlockComputesTheSerial : Prop :=
  ∀ (s : State) (xs rest : List PortSample) (L : List Byte), s.input = xs ++ rest →
    IsRun (eventsOf s.handshake xs) L →
    ∃ t, runSteps xs.length s = .next t ∧ t.input = rest ∧
      (4 ≤ L.length → ∃ v, serial L = .serial v ∧
        t.regs.outputs = { doneO := true, errO := false, serialO := v }) ∧
      (L.length < 4 → t.regs.outputs = { doneO := false, errO := true, serialO := 0#32 })

/-- R156: the result depends neither on idle cycles, nor on how long the block is busy, nor on `NOP` commands: two hosts
whose events are the same but for `NOP`s leave the same registers. -/
def Obligations.ResultDoesNotDependOnTiming : Prop :=
  ∀ (s t : State) (xs ys rest rest' : List PortSample), s.regs = t.regs →
    s.input = xs ++ rest → t.input = ys ++ rest' →
    withoutNops (eventsOf s.handshake xs) = withoutNops (eventsOf t.handshake ys) →
    ∃ s' t', runSteps xs.length s = .next s' ∧ runSteps ys.length t = .next t' ∧
      s'.regs = t'.regs ∧ s'.input = rest ∧ t'.input = rest'

/-- Derived from R3 and R101: what follows a `CLR` or reset cannot depend on anything before it: from any two states, two
hosts with the same events, a `CLR` or reset among them, leave the same registers. -/
def Obligations.ClrForgetsTheHistory : Prop :=
  ∀ (s t : State) (xs ys rest rest' : List PortSample), s.input = xs ++ rest → t.input = ys ++ rest' →
    eventsOf s.handshake xs = eventsOf t.handshake ys →
    (∃ ev ∈ eventsOf s.handshake xs, ev.startsLogin) →
    ∃ s' t', runSteps xs.length s = .next s' ∧ runSteps ys.length t = .next t' ∧
      s'.regs = t'.regs ∧ s'.input = rest ∧ t'.input = rest'

/-- Derived from R154: with a host that holds its command until it is accepted, the first command accepted is the one
it offered, if any is. -/
def Obligations.HeldCommandIsTheOneAccepted : Prop :=
  ∀ (h : Handshake) (a : PortSample) (xs : List PortSample), HostHoldsCommand h (a :: xs) →
    a.cmdValid = true → (∀ e ∈ a :: xs, e.rst = false) →
    eventsOf h (a :: xs) = [] ∨ (eventsOf h (a :: xs)).head? = some (.command (decode a.cmd))

/-- Derived from R150 and R153: after a reset edge and the first edge with `rst = 0`, any number of idle edges later, an
offered command runs at the edge at which it is offered, from the reset registers, whatever the state before and
whatever `busy` says at any of these edges. -/
def Obligations.CommandAfterResetRunsAtOnce : Prop :=
  ∀ (s : State) (a b c : PortSample) (xs rest : List PortSample), s.input = (a :: b :: xs) ++ c :: rest →
    a.rst = true → b.rst = false → b.cmdValid = false →
    (∀ e ∈ xs, e.rst = false ∧ e.cmdValid = false) → c.rst = false → c.cmdValid = true →
    runSteps ((a :: b :: xs).length + 1) s =
      exec (decode c.cmd) { regs := State.reset.regs, handshake := .working, input := rest }
end

