-- ==== Sys2Proof/Laws/Assembly.lean ====
section
/-! SUPPORT. When a line assembles, and to what. -/

namespace Sys2Proof.Machine

/-- A line assembles exactly when it is well-formed, to the words of its commands. -/
theorem AsmLine.assemble_eq_some {a : AsmLine} {ws : List CmdWord} :
    a.assemble = some ws ↔ a.wellFormed = true ∧ ws = a.commands.map encode := by
  cases h : a.wellFormed <;> simp only [AsmLine.assemble, h, Bool.false_eq_true, if_true, if_false]
  · simp
  · exact ⟨fun e => ⟨trivial, (Option.some.inj e).symm⟩, fun e => congrArg some e.2.symm⟩

/-- A comment is a blank line. -/
theorem readLine_comment (text : List Char) : readLine (';' :: text) = some none := by
  have h : atEnd (';' :: text) = true := by simp [atEnd, skipBlanks]
  unfold readLine
  rw [if_pos h]

end Sys2Proof.Machine
end

