-- ==== Sys2Proof/Laws/Datapath.lean ====
section
/-! SUPPORT. The datapath operations as arithmetic on natural numbers. -/

namespace Sys2Proof.Machine

theorem zext32_toNat (b : Byte) : (zext32 b).toNat = b.toNat := by
  have h := b.isLt
  simp only [zext32, BitVec.toNat_setWidth]
  omega

theorem add32_toNat (a b : Word) : (add32 a b).toNat = (a.toNat + b.toNat) % 2 ^ 32 :=
  BitVec.toNat_add a b

theorem umodK_toNat (a : Word) : (umodK a).toNat = a.toNat % 1337 := by
  have h : a.toNat % 1337 < 1337 := Nat.mod_lt _ (by decide)
  have hk : Config.kMod.toNat = 1337 := rfl
  simp only [umodK, BitVec.toNat_ofNat, hk]
  omega

theorem fold_toNat (v : Word) (c : Byte) :
    (fold v c).toNat = (v.toNat + (xor32 v (zext32 c)).toNat % 1337) % 2 ^ 32 := by
  rw [fold, add32_toNat, umodK_toNat]

theorem foldAll_nil (v : Word) : foldAll v [] = v := rfl

theorem foldAll_cons (v : Word) (c : Byte) (cs : List Byte) :
    foldAll v (c :: cs) = foldAll (fold v c) cs := rfl

/-- One more byte at the end is one more fold: what `PUSH` does to `V`. -/
theorem foldAll_concat (v : Word) (cs : List Byte) (c : Byte) :
    foldAll v (cs ++ [c]) = fold (foldAll v cs) c := by
  induction cs generalizing v with
  | nil => rfl
  | cons d ds ih => exact ih (fold v d)

end Sys2Proof.Machine
end

