-- ==== Sys2Proof/Laws/Decode.lean ====
section
/-! SUPPORT. The fields and bits of a word of format C. -/

namespace Sys2Proof

theorem formatC_bit9 (op : BitVec 2) (d : Byte) : (formatC op d).getLsbD 9 = op.getLsbD 1 := by
  unfold formatC
  rw [BitVec.getLsbD_append]
  rfl

theorem formatC_bit8 (op : BitVec 2) (d : Byte) : (formatC op d).getLsbD 8 = op.getLsbD 0 := by
  unfold formatC
  rw [BitVec.getLsbD_append]
  rfl

theorem dataField_formatC (op : BitVec 2) (d : Byte) : dataField (formatC op d) = d := by
  ext i hi
  simp only [dataField, formatC, BitVec.getElem_extractLsb', BitVec.getLsbD_append]
  simp [hi]

theorem opField_formatC (op : BitVec 2) (d : Byte) : opField (formatC op d) = op := by
  ext i hi
  simp only [opField, formatC, BitVec.getElem_extractLsb', BitVec.getLsbD_append]
  have h : ¬(8 + i < 8) := by omega
  simp [h, hi]

/-- A word is its two fields (R60). -/
theorem formatC_fields (w : CmdWord) : formatC (opField w) (dataField w) = w := by
  apply BitVec.eq_of_getLsbD_eq
  intro i hi
  simp only [formatC, opField, dataField, BitVec.getLsbD_append, BitVec.getLsbD_extractLsb']
  by_cases h : i < 8
  · simp [h]
  · have h1 : i - 8 < 2 := by omega
    have h2 : 8 + (i - 8) = i := by omega
    simp [h, h1, h2]

/-- The decoder read through the opcode field. -/
theorem decode_formatC (op : BitVec 2) (d : Byte) :
    decode (formatC op d) =
      match op.getLsbD 1, op.getLsbD 0 with
      | false, false => .nop
      | false, true => .clr
      | true, false => .push d
      | true, true => .fin := by
  cases h1 : op.getLsbD 1 <;> cases h0 : op.getLsbD 0 <;>
    simp only [decode, formatC_bit9, formatC_bit8, dataField_formatC, h1, h0]

end Sys2Proof
end

