-- ==== Sys2Proof/Laws/State.lean ====
section
/-! SUPPORT. The fields of the states that the operations answer. -/

namespace Sys2Proof.Machine

@[simp] theorem State.reset_regs : State.reset.regs = Regs.reset := rfl
@[simp] theorem State.reset_handshake : State.reset.handshake = .afterReset := rfl
@[simp] theorem State.reset_input : State.reset.input = [] := rfl

@[simp] theorem Regs.clear_eq (r : Regs) : r.clear = Regs.reset := rfl

@[simp] theorem Regs.publish_v (r : Regs) : r.publish.v = r.v := rfl
@[simp] theorem Regs.publish_pre0 (r : Regs) : r.publish.pre0 = r.pre0 := rfl
@[simp] theorem Regs.publish_pre1 (r : Regs) : r.publish.pre1 = r.pre1 := rfl
@[simp] theorem Regs.publish_pre2 (r : Regs) : r.publish.pre2 = r.pre2 := rfl
@[simp] theorem Regs.publish_n (r : Regs) : r.publish.n = r.n := rfl
@[simp] theorem Regs.publish_done (r : Regs) : r.publish.done = true := rfl
@[simp] theorem Regs.publish_err (r : Regs) : r.publish.err = r.err := rfl

@[simp] theorem Regs.raise_v (r : Regs) (e : Exception) : (r.raise e).v = r.v := by cases e; rfl
@[simp] theorem Regs.raise_pre0 (r : Regs) (e : Exception) : (r.raise e).pre0 = r.pre0 := by cases e; rfl
@[simp] theorem Regs.raise_pre1 (r : Regs) (e : Exception) : (r.raise e).pre1 = r.pre1 := by cases e; rfl
@[simp] theorem Regs.raise_pre2 (r : Regs) (e : Exception) : (r.raise e).pre2 = r.pre2 := by cases e; rfl
@[simp] theorem Regs.raise_n (r : Regs) (e : Exception) : (r.raise e).n = r.n := by cases e; rfl
@[simp] theorem Regs.raise_done (r : Regs) (e : Exception) : (r.raise e).done = r.done := by cases e; rfl
@[simp] theorem Regs.raise_err (r : Regs) (e : Exception) : (r.raise e).err = true := by cases e; rfl

@[simp] theorem Regs.absorb_done (c : Byte) (r : Regs) : (r.absorb c).done = r.done := by
  unfold Regs.absorb; split <;> rfl
@[simp] theorem Regs.absorb_err (c : Byte) (r : Regs) : (r.absorb c).err = r.err := by
  unfold Regs.absorb; split <;> rfl

@[simp] theorem State.resetStep_regs (s : State) : s.resetStep.regs = Regs.reset := rfl
@[simp] theorem State.resetStep_handshake (s : State) : s.resetStep.handshake = s.handshake := rfl
@[simp] theorem State.resetStep_input (s : State) : s.resetStep.input = s.input := rfl

@[simp] theorem State.offerNext_regs (w : CmdWord) (s : State) : (s.offerNext w).regs = s.regs := rfl
@[simp] theorem State.offerNext_handshake (w : CmdWord) (s : State) :
    (s.offerNext w).handshake = s.handshake := rfl
@[simp] theorem State.offerNext_input (w : CmdWord) (s : State) :
    (s.offerNext w).input = PortSample.offer w :: s.input := rfl

end Sys2Proof.Machine
end

