-- ==== Sys2Proof/Laws/Ops.lean ====
section
/-! SUPPORT. What each shared operation and each command can do, said once. -/

namespace Sys2Proof.Machine

theorem Regs.ended_eq_true {r : Regs} : r.ended = true ↔ r.done = true ∨ r.err = true := by
  simp [Regs.ended]

theorem Regs.ended_eq_false {r : Regs} : r.ended = false ↔ r.done = false ∧ r.err = false := by
  simp [Regs.ended]

theorem Regs.longEnough_iff {r : Regs} : r.longEnough = true ↔ r.n = .four := by
  simp [Regs.longEnough]

/-- Every way a byte can be absorbed. -/
theorem Regs.absorb_cases (c : Byte) (r : Regs) :
    (r.n = .zero ∧ r.absorb c = { r with pre0 := c, n := .one }) ∨
    (r.n = .one ∧ r.absorb c = { r with pre1 := c, n := .two }) ∨
    (r.n = .two ∧ r.absorb c = { r with pre2 := c, n := .three }) ∨
    (r.n = .three ∧
      r.absorb c = { r with v := fold (fold (fold (fold (seed c) r.pre0) r.pre1) r.pre2) c, n := .four }) ∨
    (r.n = .four ∧ r.absorb c = { r with v := fold r.v c }) := by
  cases h : r.n <;> simp [Regs.absorb, h]

/-- The one next state of each command, as an update of the registers. -/
def commandEffect (i : Instr) (r : Regs) : Regs :=
  match i with
  | .nop => r
  | .clr => Regs.reset
  | .push c => if r.ended then r else r.absorb c
  | .fin => if r.ended then r else if r.longEnough then r.publish else r.raise .invalidInput

/-- A command answers a next state, changes the registers by its effect, and leaves the handshake and the host's
samples alone. -/
theorem exec_eq (i : Instr) (s : State) : exec i s = .next { s with regs := commandEffect i s.regs } := by
  cases i with
  | nop => rfl
  | clr => rfl
  | push c => cases h : s.regs.ended <;> simp [exec, execPush, commandEffect, h]
  | fin =>
    cases h : s.regs.ended <;> cases h' : s.regs.longEnough <;> simp [exec, execFin, commandEffect, h, h']

/-- The one next state of an event. -/
def eventEffect (ev : Event) (r : Regs) : Regs :=
  match ev with
  | .reset => Regs.reset
  | .command i => commandEffect i r

theorem handle_eq (ev : Event) (s : State) : s.handle ev = .next { s with regs := eventEffect ev s.regs } := by
  cases ev with
  | reset => rfl
  | command i => exact exec_eq i s

end Sys2Proof.Machine
end

