-- ==== Sys2Proof/Laws/PerInstr.lean ====
section
/-! SUPPORT. Facts about every command as syntax, one lemma per constructor. -/

namespace Sys2Proof.Laws.RowShape

/-- The encoded word of a command is a word of that command's row: `(w & mask) = match` (R62). -/
def Statement (i : Instr) : Prop := encode i &&& rowMask = i.rowMatch

theorem nop : Statement .nop := by unfold Statement; decide

theorem clr : Statement .clr := by unfold Statement; decide

theorem push (c : Byte) : Statement (.push c) := by
  unfold Statement
  apply BitVec.eq_of_getLsbD_eq
  intro i hi
  have h : ∀ j : Nat, j < 8 → (0x300#10).getLsbD j = false := by decide
  simp only [encode, formatC, rowMask, Instr.rowMatch, BitVec.getLsbD_and, BitVec.getLsbD_append]
  by_cases h8 : i < 8
  · have h2 : ∀ j : Nat, j < 8 → (0x200#10).getLsbD j = false := by decide
    simp [h i h8, h2 i h8]
  · obtain rfl | rfl : i = 8 ∨ i = 9 := by omega
    · rfl
    · rfl

theorem fin : Statement .fin := by unfold Statement; decide

end Sys2Proof.Laws.RowShape
end

