-- ==== Sys2Proof/Laws/Ports.lean ====
section
/-! SUPPORT. What an edge can be, and where it leaves the handshake. -/

namespace Sys2Proof.Machine

/-- An idle block is ready at every edge without reset (R29, R150). -/
theorem PortSample.cmdReady_idle (e : PortSample) : e.cmdReady .idle = !e.rst := by
  simp [PortSample.cmdReady]

/-- Every way an edge can be read: reset, an accepted command, or neither, with the handshake it leaves. -/
theorem PortSample.event_cases (e : PortSample) (h : Handshake) :
    (e.rst = true ∧ e.event? h = some .reset ∧ h.after e = .afterReset) ∨
    (e.rst = false ∧ e.cmdValid = true ∧ e.cmdReady h = true ∧
      e.event? h = some (.command (decode e.cmd)) ∧ h.after e = .working) ∨
    (e.rst = false ∧ (e.cmdValid = false ∨ e.cmdReady h = false) ∧ e.event? h = none ∧
      (h.after e = .idle ∨ h = .working ∧ e.busy = true ∧ h.after e = .working)) := by
  cases hr : e.rst <;> cases hv : e.cmdValid <;> cases hb : e.busy <;> cases h <;>
    simp [PortSample.event?, PortSample.accepts, PortSample.cmdReady, Handshake.after, hr, hv, hb]

/-- A word offered with the block not busy is accepted, whatever the handshake. -/
theorem PortSample.event_offer (w : CmdWord) (h : Handshake) :
    (PortSample.offer w).event? h = some (.command (decode w)) := by
  simp [PortSample.event?, PortSample.accepts, PortSample.cmdReady, PortSample.offer]

/-- From reset or idle, an edge that neither resets nor accepts leaves the block idle (R150). -/
theorem Handshake.after_idle {h : Handshake} {e : PortSample} (hh : h ≠ .working) (hr : e.rst = false)
    (ha : e.accepts h = false) : h.after e = .idle := by
  cases h <;> simp_all [Handshake.after]

end Sys2Proof.Machine
end

