-- ==== Sys2Proof/Laws/Step.lean ====
section
/-! SUPPORT. What one step can do. -/

namespace Sys2Proof.Machine

/-- Every way a step can go: no sample left, an edge without an event, an edge with one. -/
theorem step_cases (s : State) :
    (s.input = [] ∧ step s = .next s) ∨
    (∃ e rest, s.input = e :: rest ∧ e.event? s.handshake = none ∧
      step s = .next { regs := s.regs, handshake := s.handshake.after e, input := rest }) ∨
    (∃ e rest ev, s.input = e :: rest ∧ e.event? s.handshake = some ev ∧
      step s = .next { regs := eventEffect ev s.regs, handshake := s.handshake.after e, input := rest }) := by
  cases h : s.input with
  | nil => exact .inl ⟨rfl, by simp [step, State.advance, h]⟩
  | cons e rest =>
    cases he : e.event? s.handshake with
    | none =>
      exact .inr (.inl ⟨e, rest, rfl, he, by simp [step, State.advance, State.edge, h, he]⟩)
    | some ev =>
      exact .inr (.inr ⟨e, rest, ev, rfl, he, by simp [step, State.advance, State.edge, h, he, handle_eq]⟩)

end Sys2Proof.Machine
end

