-- ==== Sys2Proof/Laws/Run.lean ====
section
/-! SUPPORT. A run of many steps as a fold of its events. -/

namespace Sys2Proof.Machine

theorem eventsOf_append (h : Handshake) (xs ys : List PortSample) :
    eventsOf h (xs ++ ys) = eventsOf h xs ++ eventsOf (handshakeAfter h xs) ys := by
  induction xs generalizing h with
  | nil => rfl
  | cons e xs ih => simp [eventsOf, handshakeAfter, ih]

/-- The registers after a sequence of events. -/
def eventsEffect (evs : List Event) (r : Regs) : Regs := evs.foldl (fun r ev => eventEffect ev r) r

/-- One step with a sample to take, said through the event of that edge. -/
theorem step_cons {s : State} {e : PortSample} {rest : List PortSample} (h : s.input = e :: rest) :
    step s = .next
      { regs := eventsEffect (e.event? s.handshake).toList s.regs
        handshake := s.handshake.after e
        input := rest } := by
  rcases step_cases s with ⟨h', -⟩ | ⟨e', rest', h', he, hs⟩ | ⟨e', rest', ev, h', he, hs⟩
  · simp [h] at h'
  all_goals
    obtain ⟨rfl, rfl⟩ : e = e' ∧ rest = rest' := by simpa [h] using h'
    rw [hs, he]
    rfl

/-- Running a sequence of edges applies its events, in order, and uses up those edges. -/
theorem runSteps_events (s : State) (xs rest : List PortSample) (h : s.input = xs ++ rest) :
    runSteps xs.length s = .next
      { regs := eventsEffect (eventsOf s.handshake xs) s.regs
        handshake := handshakeAfter s.handshake xs
        input := rest } := by
  induction xs generalizing s with
  | nil => cases s; simp_all [runSteps, eventsOf, eventsEffect, handshakeAfter]
  | cons e xs ih =>
    simp only [List.length_cons, runSteps, step_cons (show s.input = e :: (xs ++ rest) from h)]
    rw [ih _ rfl]
    simp [eventsOf, eventsEffect, handshakeAfter]

end Sys2Proof.Machine
end

