-- ==== Sys2Proof/Tests/Slice0.lean ====
section
/-! SUPPORT. Tests. Expected results come from spec/95_test_vectors.md (the ids V, T, P are that file's) or from the
rules named. The theorems test_witness_<Name> show, for the obligation of that name, that its hypotheses are met. -/

namespace Sys2Proof.Tests

open Sys2Proof Sys2Proof.Machine

/-! ## Well-formedness -/

/-- No command has a check, so none is refused: R63, R64. -/
theorem test_commands_are_well_formed :
    Instr.nop.wellFormed = true ∧ Instr.clr.wellFormed = true ∧ (Instr.push 0xFF#8).wellFormed = true ∧
    Instr.fin.wellFormed = true := by decide

/-- The checks of assembler lines: a decimal over 255, a character that is not printable, such a LOGIN string. -/
theorem test_ill_formed_lines_are_refused :
    (AsmLine.push (.dec 256)).wellFormed = false ∧ (AsmLine.push (.dec 256)).assemble = none ∧
    (AsmLine.push (.chr '\n')).wellFormed = false ∧ (AsmLine.push (.chr '\n')).assemble = none ∧
    (AsmLine.login ['a', '\t']).wellFormed = false ∧ (AsmLine.login ['a', '\t']).assemble = none := by decide

/-! ## Words, written out bit by bit from R60 and R62 -/

theorem test_decode_nop : decode 0b0010101010#10 = .nop := by decide
theorem test_decode_clr : decode 0b0111111111#10 = .clr := by decide
theorem test_decode_push : decode 0b1001100001#10 = .push 0b01100001#8 := by decide
theorem test_decode_push_high : decode 0b1010000000#10 = .push 0b10000000#8 := by decide
theorem test_decode_fin : decode 0b1111000011#10 = .fin := by decide

theorem test_encode_words :
    encode .nop = 0b0000000000#10 ∧ encode .clr = 0b0100000000#10 ∧
    encode (.push 0x61#8) = 0b1001100001#10 ∧ encode .fin = 0b1100000000#10 := by decide

theorem test_table_words :
    decodeTableWord 16 0x000 = some .nop ∧ decodeTableWord 16 0x100 = some .clr ∧
    decodeTableWord 16 0x2FF = some (.push 0xFF#8) ∧ decodeTableWord 16 0x300 = some .fin ∧
    decodeTableWord 16 0x400 = none := by decide

/-! ## The datapath: sections 2 and 3 of 95_test_vectors.md -/

/-- V15a to V15g. -/
theorem test_seed_vectors :
    seed 0x00#8 = 0x005F0124#32 ∧ seed 0x37#8 = 0x005F00ED#32 ∧ seed 0x64#8 = 0x005F0140#32 ∧
    seed 0x7F#8 = 0x005F0135#32 ∧ seed 0x80#8 = 0x005F01A4#32 ∧ seed 0xC8#8 = 0x005F01EC#32 ∧
    seed 0xFF#8 = 0x005F01B5#32 := by decide

/-- V20 to V25. -/
theorem test_fold_vectors_low_and_top :
    fold 0x00000000#32 0x00#8 = 0x00000000#32 ∧ fold 0x00000000#32 0xFF#8 = 0x000000FF#32 ∧
    fold 0x00000538#32 0x00#8 = 0x00000A70#32 ∧ fold 0x00000539#32 0x00#8 = 0x00000539#32 ∧
    fold 0xFFFFFFFF#32 0x00#8 = 0x0000020F#32 ∧ fold 0xFFFFFFFF#32 0xFF#8 = 0x00000110#32 := by decide

/-- V26 to V29d. -/
theorem test_fold_vectors_near_top :
    fold 0xFFFFFF00#32 0xFF#8 = 0x00000110#32 ∧ fold 0xFFFFFB00#32 0x00#8 = 0xFFFFFD4A#32 ∧
    fold 0x80000000#32 0x80#8 = 0x80000425#32 ∧ fold 0x7FFFFFFF#32 0x01#8 = 0x800003A2#32 ∧
    fold 0xFFFFFDAF#32 0x41#8 = 0x000002E7#32 ∧ fold 0xFFFFFFFE#32 0x01#8 = 0x0000020E#32 ∧
    fold 0x005F01A8#32 0x41#8 = 0x005F01A8#32 := by decide

/-- V1, V2, V5, V8 to V13, V16: the sign-handling vectors among them. -/
theorem test_serial_vectors :
    serial [0x61#8, 0x62#8, 0x63#8, 0x64#8] = .serial 0x005F1164#32 ∧
    serial [0x78#8, 0x78#8, 0x78#8, 0x78#8] = .serial 0x005F115E#32 ∧
    serial [0x61#8, 0x62#8, 0x63#8, 0x64#8, 0x65#8] = .serial 0x005F160A#32 ∧
    serial [0x00#8, 0x00#8, 0x00#8, 0x00#8] = .serial 0x005F0FB6#32 ∧
    serial [0x61#8, 0x62#8, 0x63#8, 0x80#8] = .serial 0x005F14C7#32 ∧
    serial [0x80#8, 0xFF#8, 0x80#8, 0xFF#8] = .serial 0x005F12A4#32 ∧
    serial [0xE9#8, 0x74#8, 0xE9#8, 0x21#8] = .serial 0x005F0B0F#32 ∧
    serial [0xFF#8, 0xFF#8, 0xFF#8, 0xFF#8] = .serial 0x005F12A4#32 ∧
    serial [0x41#8, 0x42#8, 0x43#8, 0x8C#8] = .serial 0x005F0620#32 ∧
    serial [0x68#8, 0x65#8, 0x6C#8, 0x6C#8, 0x6F#8] = .serial 0x005F1614#32 := by decide

/-- V6 (`override`), V7 (`hamzakheiri`) and V14 (`level06!`). -/
theorem test_serial_long_vectors :
    serial [0x6F#8, 0x76#8, 0x65#8, 0x72#8, 0x72#8, 0x69#8, 0x64#8, 0x65#8] = .serial 6234511#32 ∧
    serial [0x68#8, 0x61#8, 0x6D#8, 0x7A#8, 0x61#8, 0x6B#8, 0x68#8, 0x65#8, 0x69#8, 0x72#8, 0x69#8] =
      .serial 6238201#32 ∧
    serial [0x6C#8, 0x65#8, 0x76#8, 0x65#8, 0x6C#8, 0x30#8, 0x36#8, 0x21#8] = .serial 6234315#32 := by decide

/-- V3 and V4. -/
theorem test_short_logins_fail :
    serial [] = .failed .invalidInput ∧ serial [0x61#8] = .failed .invalidInput ∧
    serial [0x61#8, 0x62#8] = .failed .invalidInput ∧
    serial [0x61#8, 0x62#8, 0x63#8] = .failed .invalidInput := by decide

/-! ## One command: section 5 of 95_test_vectors.md -/

/-- A register state written as that section writes it. -/
def regs (v : Word) (p0 p1 p2 : Byte) (n : Count) (done err : Bool) : Regs where
  v := v
  pre0 := p0
  pre1 := p1
  pre2 := p2
  n := n
  done := done
  err := err

/-- An idle machine with these registers and these coming edges. -/
def st (r : Regs) (xs : List PortSample) : State where
  regs := r
  handshake := .idle
  input := xs

/-- The machine with these registers right after it accepted a command, with no coming edge. -/
def worked (r : Regs) : State where
  regs := r
  handshake := .working
  input := []

/-- An edge without reset: is the block busy, does the host offer a command, and which. -/
def edge (busy cmdValid : Bool) (cmd : CmdWord) : PortSample where
  rst := false
  busy := busy
  cmdValid := cmdValid
  cmd := cmd

/-- The states of `abcd`: three bytes in, four in, done, and the failure of `abc`. -/
def abc : Regs := regs 0 0x61 0x62 0x63 .three false false
def abcd : Regs := regs 0x005F1164 0x61 0x62 0x63 .four false false
def abcdDone : Regs := regs 0x005F1164 0x61 0x62 0x63 .four true false
def abcFailed : Regs := regs 0 0x61 0x62 0x63 .three false true

/-- T1, and the example of R100 with the word 0x0A5. -/
theorem test_nop : step (st Regs.reset [.offer 0x000]) = .next (worked Regs.reset) ∧
    step (st abcdDone [.offer 0x0A5]) = .next (worked abcdDone) := ⟨rfl, rfl⟩

/-- T2, T3, T4. -/
theorem test_push_prefix :
    step (st Regs.reset [.offer 0x261]) = .next (worked (regs 0 0x61 0 0 .one false false)) ∧
    step (st (regs 0 0x61 0 0 .one false false) [.offer 0x262]) =
      .next (worked (regs 0 0x61 0x62 0 .two false false)) ∧
    step (st (regs 0 0x61 0x62 0 .two false false) [.offer 0x263]) = .next (worked abc) := ⟨rfl, rfl, rfl⟩

/-- T5, T6, T18. -/
theorem test_push_folds :
    (abc.absorb 0x64).v = 0x005F1164#32 ∧ (abc.absorb 0x64).n = .four ∧
    abcd.absorb 0x65 = { abcd with v := 0x005F160A } ∧
    (regs 0xFFFFFD03 0x41 0x41 0x41 .four false false).absorb 0x41 =
      regs 0x0000018F 0x41 0x41 0x41 .four false false := by decide

/-- T8, T12, and the last row of P5. -/
theorem test_push_after_the_end :
    exec (.push 0x65) (st abcdDone []) = .next (st abcdDone []) ∧
    exec (.push 0x64) (st abcFailed []) = .next (st abcFailed []) ∧
    exec (.push 0x61) (st (regs 0 0 0 0 .zero false true) []) =
      .next (st (regs 0 0 0 0 .zero false true) []) := ⟨rfl, rfl, rfl⟩

/-- T7, T11, T15. -/
theorem test_fin_publishes_or_raises :
    exec .fin (st abcd []) = .next (st abcdDone []) ∧ exec .fin (st abc []) = .next (st abcFailed []) ∧
    exec .fin (st Regs.reset []) = .next (st (regs 0 0 0 0 .zero false true) []) := ⟨rfl, rfl, rfl⟩

/-- T9, T13. -/
theorem test_fin_after_the_end :
    exec .fin (st abcdDone []) = .next (st abcdDone []) ∧
    exec .fin (st abcFailed []) = .next (st abcFailed []) := ⟨rfl, rfl⟩

/-- T10, T14, T16. -/
theorem test_clr :
    exec .clr (st abcdDone []) = .next (st Regs.reset []) ∧
    exec .clr (st abcFailed []) = .next (st Regs.reset []) ∧
    exec .clr (st (regs 0 0x61 0x62 0 .two false false) []) = .next (st Regs.reset []) := ⟨rfl, rfl, rfl⟩

/-- The column of outputs of T6, T7 and T11; P1 row 4. -/
theorem test_outputs :
    abcd.outputs = { doneO := false, errO := false, serialO := 0 } ∧
    abcdDone.outputs = { doneO := true, errO := false, serialO := 0x005F1164 } ∧
    abcFailed.outputs = { doneO := false, errO := true, serialO := 0 } := by decide

/-- T17, with a command offered in the same cycle and the block busy (R151). -/
theorem test_reset_wins :
    step (st abcdDone [{ rst := true, busy := true, cmdValid := true, cmd := 0x265 }]) = .next State.reset := rfl

/-- R61: no command without `cmd_valid`, and none while the block is busy with an earlier one. -/
theorem test_no_acceptance :
    step (st abc [edge false false 0x264]) = .next (st abc []) ∧
    step { worked abc with input := [edge true true 0x264] } = .next (worked abc) := ⟨rfl, rfl⟩

/-- R150: after the first edge with `rst = 0` the block is ready, and stays so: `busy` cannot hold a command up. -/
theorem test_ready_after_reset :
    step { State.reset with input := [edge true true 0x261] } = .next (st Regs.reset []) ∧
    step (st Regs.reset [edge true false 0x000]) = .next (st Regs.reset []) ∧
    step (st Regs.reset [edge true true 0x261]) = .next (worked (regs 0 0x61 0 0 .one false false)) :=
  ⟨rfl, rfl, rfl⟩

/-- R29, R157: once the block is ready again it no longer works on the command before. -/
theorem test_ready_again :
    step { worked abc with input := [edge false false 0x000] } = .next (st abc []) := rfl

/-! ## Assembly text -/

/-- R66: each form of `PUSH 'a'`, with a comment, and P3's canonical `PUSH 0x80`. -/
theorem test_assemble_push :
    assembleLine ['P', 'U', 'S', 'H', ' ', '0', 'x', '6', '1'] = some [0x261] ∧
    assembleLine ['P', 'U', 'S', 'H', ' ', '\'', 'a', '\'', ' ', ';', 'a'] = some [0x261] ∧
    assembleLine ['P', 'U', 'S', 'H', ' ', '9', '7'] = some [0x261] ∧
    assembleLine ['P', 'U', 'S', 'H', ' ', '2', '5', '6'] = none ∧
    disassemble 0x280 = ['P', 'U', 'S', 'H', ' ', '0', 'x', '8', '0'] := by decide

/-- R67: `LOGIN "ab"`, `LOGINB 61 62` and the `LOGINB` with no bytes. -/
theorem test_assemble_login :
    assembleLine ['L', 'O', 'G', 'I', 'N', ' ', '"', 'a', 'b', '"'] = some [0x100, 0x261, 0x262, 0x300] ∧
    assembleLine ['L', 'O', 'G', 'I', 'N', 'B', ' ', '6', '1', ' ', '6', '2'] =
      some [0x100, 0x261, 0x262, 0x300] ∧
    assembleLine ['L', 'O', 'G', 'I', 'N', 'B'] = some [0x100, 0x300] := by decide

/-- P5 as text, one command a line, with a blank line and a comment. -/
theorem test_assemble_program :
    assembleText [['C', 'L', 'R'], [], ['F', 'I', 'N', ';', 'x'], ['F', 'I', 'N'], ['P', 'U', 'S', 'H', ' ', '\'', 'a', '\'']] =
      some [0x100, 0x300, 0x300, 0x261] ∧
    assembleText [['C', 'L', 'R'], ['H', 'L', 'T']] = none := by decide

/-! ## Witnesses: the hypotheses of the obligations are met -/

theorem test_witness_PushOperandIsTheZeroExtendedByte :
    opField 0x200 = 0b10#2 ∧ opField 0x2FF = 0b10#2 := by decide

theorem test_witness_IgnoredDataHasNoEffect :
    (0b00#2 ≠ 0b10#2) ∧ (0b01#2 ≠ 0b10#2) ∧ (0b11#2 ≠ 0b10#2) ∧ (0x00#8 ≠ 0xFF#8) := by decide

theorem test_witness_DisassemblyReassembles :
    opField 0x0FF = 0b00#2 ∧ opField 0x100 = 0b01#2 ∧ opField 0x200 = 0b10#2 ∧ opField 0x2FF = 0b10#2 ∧
    opField 0x3C3 = 0b11#2 := by decide

theorem test_witness_AssemblerWords :
    0 ≤ 255 ∧ 255 ≤ 255 ∧ 255 < 256 ∧ (0x20 ≤ ' '.toNat ∧ ' '.toNat ≤ 0x7E) ∧
    (0x20 ≤ '~'.toNat ∧ '~'.toNat ≤ 0x7E) := by decide

theorem test_witness_LoginPseudoInstructionIsOneCall :
    (∀ x ∈ [' ', 'a', '~'], 0x20 ≤ x.toNat ∧ x.toNat ≤ 0x7E) ∧
    (AsmLine.loginb []).assemble = some [0x100, 0x300] ∧
    (st abcd [.offer 0x100, .offer 0x300]).input = [0x100, 0x300].map PortSample.offer ++ [] :=
  ⟨by simp, rfl, rfl⟩

theorem test_witness_StepRunsTheAcceptedCommand :
    ((PortSample.offer 0x261).rst = false ∧ (PortSample.offer 0x261).cmdValid = true ∧
      (PortSample.offer 0x261).cmdReady .working = true) ∧
    ((edge true true 0x261).rst = false ∧ (edge true true 0x261).cmdReady .working = false) ∧
    ((edge false false 0x261).rst = false ∧ (edge false false 0x261).cmdValid = false) := by decide

theorem test_witness_OfferedTableWordRunsFirst :
    decodeTableWord 16 0x261 = some (.push 0x61#8) ∧
    step (State.reset.withFetchWord 16 0x261) = exec (.push 0x61#8) { State.reset with handshake := .working } :=
  ⟨by decide, rfl⟩

theorem test_witness_SilentHostChangesNothing : State.reset.input = [] := rfl

theorem test_witness_ResetWinsOverAnyCommand :
    PortSample.resetEdge.rst = true ∧ (st abcd [.resetEdge]).input = [PortSample.resetEdge] := by decide

theorem test_witness_ResetStepEqualsClr : PortSample.resetEdge.rst = true := rfl

/-- A reset edge; then a refused command, and an idle edge at which `busy` is up. -/
theorem test_witness_ResetStepThenReady :
    (st abcd [.resetEdge]).input = [PortSample.resetEdge] ∧ PortSample.resetEdge.rst = true ∧
    State.reset.handshake = .afterReset ∧ (edge true true 0x261).rst = false ∧
    (edge true true 0x261).accepts .afterReset = false ∧
    (∀ e ∈ [edge true false 0x000], e.rst = false ∧ e.cmdValid = false) ∧
    (PortSample.offer 0x261).rst = false := by decide

theorem test_witness_ReadyUnlessWorkingOrInReset :
    (edge true true 0x261).cmdReady .working = false ∧ (edge true true 0x261).cmdReady .afterReset = false ∧
    PortSample.resetEdge.cmdReady .idle = false ∧
    (step (st abc [.offer 0x264]) = .next (worked abcd) ∧ (worked abcd).handshake = .working ∧
      (st abc []).handshake ≠ .working) ∧
    (edge false false 0x000).cmdReady .working = true ∧ (edge false false 0x000).cmdValid = false :=
  ⟨rfl, rfl, rfl, ⟨rfl, rfl, by decide⟩, rfl, rfl⟩

theorem test_witness_OutputsAreGatedAndShownWhileReady :
    abcdDone.done = true ∧ abcd.done = false ∧ (PortSample.offer 0x000).cmdReady .idle = true ∧
    PortSample.resetEdge.cmdReady .idle = false ∧ (edge true true 0x000).rst = false := by decide

/-- `abc` and its failure keep the invariants. -/
theorem abc_inv : abc.Inv ∧ abcFailed.Inv := by
  constructor <;> constructor <;> decide

theorem test_witness_FinPublishesOrRaises : abc.Inv ∧ abc.n ≠ .four := ⟨abc_inv.1, by decide⟩

theorem test_witness_ControlCommandFrame :
    exec .nop (st abcd []) = .next (st abcd []) ∧ exec .clr (st abcd []) = .next (st Regs.reset []) := ⟨rfl, rfl⟩

/-- One `PUSH` at each boundary of the clauses: `N = 0`, `N = 2`, `N = 3`, `N = 4`, after the end. -/
theorem test_witness_PushFrame :
    (∃ t, exec (.push 0x61) State.reset = .next t ∧ State.reset.regs.n.toNat ≠ (2 : Fin 3).val) ∧
    (∃ t, exec (.push 0x63) (st (regs 0 0x61 0x62 0 .two false false) []) = .next t ∧ Count.two.toNat < 3) ∧
    (∃ t, exec (.push 0x64) (st abc []) = .next t ∧ abc.n.toNat ≠ (0 : Fin 3).val) ∧
    (∃ t, exec (.push 0x65) (st abcd []) = .next t ∧ abcd.n = .four) ∧
    (∃ t, exec (.push 0x65) (st abcdDone []) = .next t ∧ (abcdDone.done = true ∨ abcdDone.err = true)) :=
  ⟨⟨_, rfl, by decide⟩, ⟨_, rfl, by decide⟩, ⟨_, rfl, by decide⟩, ⟨_, rfl, rfl⟩, ⟨_, rfl, .inl rfl⟩⟩

theorem test_witness_FinFrame :
    (∃ t, exec .fin (st abcd []) = .next t ∧ abcd.n = .four) ∧
    (∃ t, exec .fin (st abc []) = .next t ∧ abc.n ≠ .four) ∧
    (∃ t, exec .fin (st abcFailed []) = .next t ∧ (abcFailed.done = true ∨ abcFailed.err = true)) :=
  ⟨⟨_, rfl, rfl⟩, ⟨_, rfl, by decide⟩, ⟨_, rfl, .inr rfl⟩⟩

theorem test_witness_PhaseTransitionTable :
    (Regs.reset.phase = some .absorb ∧ Regs.reset.n ≠ .four) ∧ (abc.phase = some .absorb ∧ abc.n ≠ .four) ∧
    (abcd.phase = some .absorb ∧ abcd.n = .four) ∧ abcdDone.phase = some .done ∧
    abcFailed.phase = some .fail := by decide

theorem test_witness_InvalidInputEntrySetsOnlyErr :
    abc.Inv ∧ abc.phase = some .absorb ∧ abc.n ≠ .four := ⟨abc_inv.1, by decide, by decide⟩

theorem test_witness_CauseIsRecordedInErr : abcFailed.err = true ∧ abcd.err = false := by decide

theorem test_witness_DoneIsSetOnlyByFin :
    (∃ t, step (st abcd [.offer 0x300]) = .next t ∧ abcd.done = false ∧ t.regs.done = true) ∧
    (∃ t, step (st abcdDone [.offer 0x100]) = .next t ∧ abcdDone.done = true ∧ t.regs.done = false) ∧
    (∃ t, step (st abcdDone [.offer 0x265]) = .next t ∧ abcdDone.done = true ∧ t.regs.done = true) ∧
    (Login.image { bytes := [0x61, 0x62, 0x63, 0x64], ended := true }).done = true :=
  ⟨⟨_, rfl, rfl, rfl⟩, ⟨_, rfl, rfl, rfl⟩, ⟨_, rfl, rfl, rfl⟩, rfl⟩

theorem test_witness_ErrIsSetOnlyByAShortFin :
    (∃ t, step (st abc [.offer 0x300]) = .next t ∧ abc.err = false ∧ t.regs.err = true) ∧
    (∃ t, step (st abcFailed [.resetEdge]) = .next t ∧ abcFailed.err = true ∧ t.regs.err = false) :=
  ⟨⟨_, rfl, rfl, rfl⟩, ⟨_, rfl, rfl, rfl⟩⟩

theorem test_witness_CommandsAfterTheEndAreIgnored : abcdDone.done = true ∧ abcFailed.err = true := by decide

theorem test_witness_OutcomeStandsUntilClrOrReset :
    (st abcFailed [.offer 0x264, .offer 0x300, .offer 0x000]).input =
      [PortSample.offer 0x264, .offer 0x300] ++ [.offer 0x000] ∧
    (abcFailed.done = true ∨ abcFailed.err = true) ∧
    ∀ ev ∈ eventsOf .idle [PortSample.offer 0x264, .offer 0x300], ¬ ev.startsLogin := by
  refine ⟨rfl, .inr rfl, ?_⟩
  change ∀ ev ∈ [Event.command (.push 0x64), .command .fin], ¬ ev.startsLogin
  simp [Event.startsLogin]

theorem test_witness_PrefixBufferIsWrittenAtTheCounter :
    (∃ t, step (st (regs 0 0x61 0x62 0 .two false false) [.offer 0x263]) = .next t ∧
      t.regs.pre 2 ≠ (regs 0 0x61 0x62 0 .two false false).pre 2) ∧
    (∃ t, step (st abcd [.offer 0x100]) = .next t ∧ t.regs.pre 0 ≠ abcd.pre 0) :=
  ⟨⟨_, rfl, by decide⟩, ⟨_, rfl, by decide⟩⟩

/-- `CLR`, then these bytes offered one by one, is a history that absorbs them. -/
theorem absorbs_pushes (L : List Byte) :
    Absorbs (.command .clr :: L.map fun c => .command (.push c)) L := by
  refine ⟨_, _, rfl, .inr rfl, ?_, ?_⟩
  · intro ev h
    obtain ⟨c, -, rfl⟩ := List.mem_map.1 h
    exact .inr ⟨c, rfl⟩
  · induction L with
    | nil => rfl
    | cons c cs ih => exact congrArg (c :: ·) ih

/-- The edges that offer `CLR` and then `a`, `b`, `c`, `d`. -/
def clrAbcd : List PortSample := [.offer 0x100, .offer 0x261, .offer 0x262, .offer 0x263, .offer 0x264]

/-- Each row of R113's table: no byte, one, two, three, four. -/
theorem test_witness_StateIsAFunctionOfTheBytesAbsorbed :
    Absorbs (eventsOf .idle (clrAbcd.take 1)) [] ∧ Absorbs (eventsOf .idle (clrAbcd.take 2)) [0x61] ∧
    Absorbs (eventsOf .idle (clrAbcd.take 3)) [0x61, 0x62] ∧ Absorbs (eventsOf .idle (clrAbcd.take 4)) [0x61, 0x62, 0x63] ∧
    Absorbs (eventsOf .idle (clrAbcd ++ [])) [0x61, 0x62, 0x63, 0x64] ∧
    (st abcdDone clrAbcd).input = clrAbcd ++ [] :=
  ⟨absorbs_pushes [], absorbs_pushes [0x61], absorbs_pushes [0x61, 0x62], absorbs_pushes [0x61, 0x62, 0x63],
    absorbs_pushes [0x61, 0x62, 0x63, 0x64], rfl⟩

theorem test_witness_CounterCountsAndSaturates :
    abc.phase = some .absorb ∧ abcd.phase = some .absorb ∧ (st abcdDone clrAbcd).input = clrAbcd ++ [] ∧
    Absorbs (eventsOf .idle clrAbcd) [0x61, 0x62, 0x63, 0x64] :=
  ⟨by decide, by decide, rfl, absorbs_pushes [0x61, 0x62, 0x63, 0x64]⟩

/-- The bounds of the bit ranges, and V24 and V27 for the two cases of the sum. -/
theorem test_witness_datapath_ranges :
    8 ≤ 8 ∧ 31 < 32 ∧
    (0xFFFFFB00#32).toNat + (0xFFFFFB00#32 ^^^ (0x00#8).setWidth 32).toNat % 1337 < 2 ^ 32 ∧
    2 ^ 32 ≤ (0xFFFFFFFF#32).toNat + (0xFFFFFFFF#32 ^^^ (0x00#8).setWidth 32).toNat % 1337 := by decide

theorem test_witness_RemainderIsUnsignedAndUnique :
    528 ≤ 1336 ∧ (0xFFFFFFFF#32).toNat = 1337 * 3212391 + 528 := by decide

theorem test_witness_SeedFormulaAndRange : seed 0x64#8 = seed 0x64#8 := rfl

theorem test_witness_FoldSeparatesBytes : fold 0xFFFFFFFF#32 0x41#8 = fold 0xFFFFFFFF#32 0x41#8 := rfl

theorem test_witness_SerialIsSeedThenFoldAll : ([0x61, 0x62, 0x63] : List Byte).length < 4 := by decide

theorem test_witness_SerialBounds :
    4 ≤ ([0x61, 0x62, 0x63, 0x64] : List Byte).length ∧
    NoWrap (seed 0x64) [0x61, 0x62, 0x63, 0x64] ∧
    serial [0x61, 0x62, 0x63, 0x64] = .serial 0x005F1164 ∧
    6226412 + 1336 * ([0x61, 0x62, 0x63, 0x64] : List Byte).length < 2 ^ 32 ∧
    (List.replicate 255 0x41#8).length ≤ 255 := by
  refine ⟨by decide, ?_, by decide, by decide, Nat.le_of_eq List.length_replicate⟩
  exact ⟨by decide, by decide, by decide, by decide, trivial⟩

theorem test_witness_EveryStepKeepsTheInvariants :
    abc.Inv ∧ ∃ t, step (st abc [.offer 0x300]) = .next t := ⟨abc_inv.1, _, rfl⟩

theorem test_witness_BlockRefinesTheLogin :
    abc = Login.image { bytes := [0x61, 0x62, 0x63], ended := false } ∧
    (st Regs.reset clrAbcd).regs = State.reset.regs ∧ (st Regs.reset clrAbcd).input = clrAbcd ++ [] :=
  ⟨rfl, rfl, rfl⟩

/-- A run with four bytes and one with three, each ended by `FIN`. -/
theorem test_witness_BlockComputesTheSerial :
    IsRun (eventsOf .idle (clrAbcd ++ [.offer 0x300])) [0x61, 0x62, 0x63, 0x64] ∧
    IsRun (eventsOf .idle (clrAbcd.take 4 ++ [.offer 0x300])) [0x61, 0x62, 0x63] ∧
    (st abcFailed (clrAbcd ++ [.offer 0x300])).input = (clrAbcd ++ [.offer 0x300]) ++ [] ∧
    4 ≤ ([0x61, 0x62, 0x63, 0x64] : List Byte).length ∧ ([0x61, 0x62, 0x63] : List Byte).length < 4 :=
  ⟨⟨_, rfl, absorbs_pushes [0x61, 0x62, 0x63, 0x64]⟩, ⟨_, rfl, absorbs_pushes [0x61, 0x62, 0x63]⟩, rfl,
    by decide, by decide⟩

/-- The same bytes at once, and with an idle edge, a busy edge and a `NOP` between them. -/
theorem test_witness_ResultDoesNotDependOnTiming :
    withoutNops (eventsOf .idle [PortSample.offer 0x261, .offer 0x262]) =
      withoutNops (eventsOf .afterReset [PortSample.offer 0x261, edge true true 0x262, edge false false 0x000,
        .offer 0x0AA, .offer 0x262]) := by decide

theorem test_witness_ClrForgetsTheHistory :
    (st abcFailed clrAbcd).input = clrAbcd ++ [] ∧
    ({ worked abcd with input := edge true true 0x100 :: clrAbcd } : State).input =
      (edge true true 0x100 :: clrAbcd) ++ [] ∧
    eventsOf .idle clrAbcd = eventsOf .working (edge true true 0x100 :: clrAbcd) ∧
    ∃ ev ∈ eventsOf .idle clrAbcd, ev.startsLogin :=
  ⟨rfl, rfl, rfl, .command .clr, List.mem_cons_self, .inr rfl⟩

theorem test_witness_HeldCommandIsTheOneAccepted :
    HostHoldsCommand .working [edge true true 0x262, .offer 0x262] ∧ (edge true true 0x262).cmdValid = true ∧
    ∀ e ∈ [edge true true 0x262, PortSample.offer 0x262], e.rst = false :=
  ⟨⟨fun _ _ => ⟨rfl, rfl⟩, trivial⟩, rfl, by decide⟩

theorem test_witness_CommandAfterResetRunsAtOnce :
    PortSample.resetEdge.rst = true ∧ (edge true false 0x000).rst = false ∧ (edge true false 0x000).cmdValid = false ∧
    (∀ e ∈ [edge true false 0x000], e.rst = false ∧ e.cmdValid = false) ∧
    (edge true true 0x261).rst = false ∧ (edge true true 0x261).cmdValid = true := by decide

end Sys2Proof.Tests
end

namespace Sys2Proof.Machine

/-! ## What one step does to the registers -/

theorem Regs.phase_eq_absorb {r : Regs} : r.phase = some .absorb ↔ r.ended = false := by
  cases hd : r.done <;> cases he : r.err <;> simp [Regs.phase, Regs.ended, hd, he]

theorem Count.toNat_lt_four {n : Count} : n.toNat < 4 ↔ n ≠ .four := by
  cases n <;> simp [Count.toNat]

/-- One step seen from the registers: nothing, or the effect of the edge's event. -/
theorem step_regs_cases {s t : State} (h : step s = .next t) :
    (s.nextEvent = none ∧ t.regs = s.regs) ∨
    (∃ ev, s.nextEvent = some ev ∧ t.regs = eventEffect ev s.regs) := by
  rcases step_cases s with ⟨hi, hs⟩ | ⟨e, rest, hi, he, hs⟩ | ⟨e, rest, ev, hi, he, hs⟩ <;>
    cases hs.symm.trans h
  · exact .inl ⟨by simp [State.nextEvent, hi], rfl⟩
  · exact .inl ⟨by simp [State.nextEvent, hi, he], rfl⟩
  · exact .inr ⟨ev, by simp [State.nextEvent, hi, he], rfl⟩

theorem eventEffect_of_startsLogin {ev : Event} (h : ev.startsLogin) (r : Regs) :
    eventEffect ev r = Regs.reset := by
  rcases h with rfl | rfl <;> rfl

/-- Once a login has ended, only a `CLR` or reset touches a register (R110, R120). -/
theorem eventEffect_of_ended {ev : Event} {r : Regs} (hr : r.ended = true) (h : ¬ ev.startsLogin) :
    eventEffect ev r = r := by
  match ev with
  | .reset => exact absurd (.inl rfl) h
  | .command .nop => rfl
  | .command .clr => exact absurd (.inr rfl) h
  | .command (.push _) => exact if_pos hr
  | .command .fin => exact if_pos hr

/-- The accepted `FIN` that ends a login: the length test alone decides which flag it sets (R120). -/
theorem eventEffect_fin {r : Regs} (hr : r.ended = false) :
    eventEffect (.command .fin) r = if r.n = .four then r.publish else r.raise .invalidInput := by
  simp [eventEffect, commandEffect, hr, Regs.longEnough_iff]

/-- Every other event sets no flag. -/
theorem eventEffect_sets_no_flag {ev : Event} {r : Regs}
    (h : ¬ (ev = .command .fin ∧ r.ended = false)) :
    ((eventEffect ev r).done = true → r.done = true) ∧
    ((eventEffect ev r).err = true → r.err = true) := by
  match ev with
  | .reset => exact ⟨nofun, nofun⟩
  | .command .nop => exact ⟨id, id⟩
  | .command .clr => exact ⟨nofun, nofun⟩
  | .command (.push c) => cases hr : r.ended <;> simp [eventEffect, commandEffect, hr]
  | .command .fin =>
    have hr : r.ended = true := by simpa using h
    simp [eventEffect, commandEffect, hr]

/-- Every step of a login that has ended: it is dropped by a `CLR` or reset, or every register stays. -/
theorem step_regs_of_ended {s t : State} (h : step s = .next t) (hs : s.regs.ended = true) :
    ((∃ ev, s.nextEvent = some ev ∧ ev.startsLogin) ∧ t.regs = Regs.reset) ∨
    ((¬ ∃ ev, s.nextEvent = some ev ∧ ev.startsLogin) ∧ t.regs = s.regs) := by
  rcases step_regs_cases h with ⟨hn, ht⟩ | ⟨ev, hn, ht⟩
  · exact .inr ⟨by simp [hn], ht⟩
  · by_cases hl : ev.startsLogin
    · exact .inl ⟨⟨ev, hn, hl⟩, ht.trans (eventEffect_of_startsLogin hl _)⟩
    · exact .inr ⟨by simpa [hn] using hl, ht.trans (eventEffect_of_ended hs hl)⟩

/-! ## How a flag is set and how it is cleared (R24, R25) -/

theorem eventEffect_fin_done {r : Regs} (hr : r.ended = false) :
    (eventEffect (.command .fin) r).done = true ↔ r.n = .four := by
  obtain ⟨hd, -⟩ := Regs.ended_eq_false.1 hr
  rw [eventEffect_fin hr]
  split <;> simp [*]

theorem eventEffect_fin_err {r : Regs} (hr : r.ended = false) :
    (eventEffect (.command .fin) r).err = true ↔ r.n.toNat < 4 := by
  obtain ⟨-, he⟩ := Regs.ended_eq_false.1 hr
  rw [eventEffect_fin hr, Count.toNat_lt_four]
  split <;> simp [*]

/-- A flag that only the `FIN` ending a login sets, and only where `P` holds, is set by a step exactly so. -/
theorem step_sets_flag_iff {flag : Regs → Bool} {P : Regs → Prop}
    (hother : ∀ {ev : Event} {r : Regs}, ¬ (ev = .command .fin ∧ r.ended = false) →
      flag (eventEffect ev r) = true → flag r = true)
    (hfin : ∀ {r : Regs}, r.ended = false → (flag (eventEffect (.command .fin) r) = true ↔ P r))
    {s t : State} (h : step s = .next t) (hs : flag s.regs = false) :
    flag t.regs = true ↔
      s.nextEvent = some (.command .fin) ∧ s.regs.phase = some .absorb ∧ P s.regs := by
  rw [Regs.phase_eq_absorb]
  rcases step_regs_cases h with ⟨hn, ht⟩ | ⟨ev, hn, ht⟩
  · simp [hn, ht, hs]
  · rw [hn, ht, Option.some.injEq]
    by_cases hev : ev = .command .fin ∧ s.regs.ended = false
    · obtain ⟨rfl, hr⟩ := hev
      simp [hfin hr, hr]
    · have hset : ¬ flag (eventEffect ev s.regs) = true := fun h' => by
        simp [hother hev h'] at hs
      exact iff_of_false hset fun ⟨hevent, hr, _⟩ => hev ⟨hevent, hr⟩

/-- A flag that reset clears and that is 1 only after the end of a login is cleared exactly by a `CLR` or reset. -/
theorem step_clears_flag_iff {flag : Regs → Bool} (hreset : flag Regs.reset = false)
    {s t : State} (h : step s = .next t) (hended : s.regs.ended = true) (hs : flag s.regs = true) :
    flag t.regs = false ↔ ∃ ev, s.nextEvent = some ev ∧ ev.startsLogin := by
  rcases step_regs_of_ended h hended with ⟨hev, ht⟩ | ⟨hev, ht⟩
  · exact iff_of_true (ht ▸ hreset) hev
  · exact iff_of_false (by simp [ht, hs]) hev

/-- `DONE` staying 1 means that no `CLR` or reset came, so nothing changed. -/
theorem step_regs_of_done_stays {s t : State} (h : step s = .next t) (hs : s.regs.done = true)
    (ht : t.regs.done = true) : t.regs = s.regs := by
  rcases step_regs_of_ended h (Regs.ended_eq_true.2 (.inl hs)) with ⟨-, hreset⟩ | ⟨-, hsame⟩
  · simp [hreset, Regs.reset] at ht
  · exact hsame

/-! ## The image of a login -/

theorem Login.image_done {l : Login} : l.image.done = true ↔ l.ended = true ∧ 4 ≤ l.bytes.length := by
  simp [Login.image]

theorem Login.serial_eq_image_v {l : Login} (h : 4 ≤ l.bytes.length) :
    serial l.bytes = .serial l.image.v := by
  simp [serial, Login.image, Config.minLen, Config.seedIdx, Nat.not_lt.2 h]

/-! ## The obligations -/

/-- Settles O29: `DONE` is set by the `FIN` that publishes, and an ended login changes only by a `CLR` or reset. -/
theorem doneIsSetOnlyByFin : Obligations.DoneIsSetOnlyByFin := by
  refine ⟨fun s t h hs => ?_, fun s t h hs => ?_, fun s t h hs ht => ?_, fun l hl => ?_⟩
  · exact step_sets_flag_iff (flag := Regs.done) (fun hev => (eventEffect_sets_no_flag hev).1)
      eventEffect_fin_done h hs
  · exact step_clears_flag_iff (flag := Regs.done) rfl h (Regs.ended_eq_true.2 (.inl hs)) hs
  · exact congrArg Regs.v (step_regs_of_done_stays h hs ht)
  · obtain ⟨hended, hlen⟩ := Login.image_done.1 hl
    exact ⟨hended, Login.serial_eq_image_v hlen⟩

/-- Settles O30: `ERR` is set by the `FIN` that raises InvalidInput, and an ended login changes only by a `CLR` or
reset. -/
theorem errIsSetOnlyByAShortFin : Obligations.ErrIsSetOnlyByAShortFin := by
  refine ⟨fun s t h hs => ?_, fun s t h hs => ?_⟩
  · exact step_sets_flag_iff (flag := Regs.err) (fun hev => (eventEffect_sets_no_flag hev).2)
      eventEffect_fin_err h hs
  · exact step_clears_flag_iff (flag := Regs.err) rfl h (Regs.ended_eq_true.2 (.inr hs)) hs

/-- Settles O14, by evaluating the reset state. -/
theorem resetLeavesEveryRegisterZero : Obligations.ResetLeavesEveryRegisterZero :=
  ⟨rfl, rfl, rfl, rfl, rfl, rfl, rfl, rfl, rfl⟩

end Sys2Proof.Machine

namespace Sys2Proof

/-! ## The decoder by opcode -/

theorem opcode_cases (op : BitVec 2) : op = 0b00#2 ∨ op = 0b01#2 ∨ op = 0b10#2 ∨ op = 0b11#2 := by
  revert op; decide

/-- The opcode map, one case per row of R62. -/
theorem decode_cases (w : CmdWord) :
    (opField w = 0b00#2 ∧ decode w = .nop) ∨ (opField w = 0b01#2 ∧ decode w = .clr) ∨
    (opField w = 0b10#2 ∧ decode w = .push (dataField w)) ∨ (opField w = 0b11#2 ∧ decode w = .fin) := by
  have hdecode := decode_formatC (opField w) (dataField w)
  rw [formatC_fields] at hdecode
  rcases opcode_cases (opField w) with hop | hop | hop | hop <;> rw [hop] at hdecode
  · exact .inl ⟨hop, hdecode⟩
  · exact .inr (.inl ⟨hop, hdecode⟩)
  · exact .inr (.inr (.inl ⟨hop, hdecode⟩))
  · exact .inr (.inr (.inr ⟨hop, hdecode⟩))

theorem opField_iff_decode (w : CmdWord) :
    (opField w = 0b00#2 ↔ decode w = .nop) ∧ (opField w = 0b01#2 ↔ decode w = .clr) ∧
    (opField w = 0b10#2 ↔ decode w = .push (dataField w)) ∧ (opField w = 0b11#2 ↔ decode w = .fin) := by
  rcases decode_cases w with ⟨hop, hdecode⟩ | ⟨hop, hdecode⟩ | ⟨hop, hdecode⟩ | ⟨hop, hdecode⟩ <;>
    simp [hop, hdecode]

/-- The mask of R62 keeps the opcode and clears the field `data`. -/
theorem and_rowMask (w : CmdWord) : w &&& rowMask = formatC (opField w) 0x00#8 := by
  have hmask : rowMask = formatC (BitVec.allOnes 2) 0x00#8 := by decide
  calc w &&& rowMask = formatC (opField w) (dataField w) &&& formatC (BitVec.allOnes 2) 0x00#8 := by
        rw [formatC_fields, hmask]
    _ = formatC (opField w &&& BitVec.allOnes 2) (dataField w &&& 0x00#8) := BitVec.and_append
    _ = formatC (opField w) 0x00#8 := by rw [BitVec.and_allOnes, BitVec.and_zero]

theorem formatC_inj {op op' : BitVec 2} {d d' : Byte} :
    formatC op d = formatC op' d' ↔ op = op' ∧ d = d' := by
  refine ⟨fun h => ⟨?_, ?_⟩, fun ⟨hop, hd⟩ => hop ▸ hd ▸ rfl⟩
  · simpa only [opField_formatC] using congrArg opField h
  · simpa only [dataField_formatC] using congrArg dataField h

theorem and_rowMask_eq_iff (w : CmdWord) (op : BitVec 2) :
    w &&& rowMask = formatC op 0x00#8 ↔ opField w = op := by
  simp [and_rowMask, formatC_inj]

/-- Only the decoder's answer for `op = 10` looks at the field `data` (R64). -/
theorem decode_formatC_ignores_data {op : BitVec 2} (h : op ≠ 0b10#2) (d d' : Byte) :
    decode (formatC op d) = decode (formatC op d') := by
  rw [decode_formatC, decode_formatC]
  rcases opcode_cases op with rfl | rfl | rfl | rfl
  · rfl
  · rfl
  · exact absurd rfl h
  · rfl

theorem dataField_toNat (w : CmdWord) : (dataField w).toNat = w.toNat % 256 := by
  simp [dataField]

theorem dataField_getLsbD {i : Nat} (hi : i < 8) (w : CmdWord) :
    (dataField w).getLsbD i = w.getLsbD i := by
  simp [dataField, hi]

/-! ## The encoder -/

@[simp] theorem decode_encode (i : Instr) : decode (encode i) = i := by
  cases i <;> exact decode_formatC _ _

/-- The canonical word keeps the opcode, and the field `data` of `PUSH` alone (R64). -/
theorem encode_decode (w : CmdWord) :
    encode (decode w) = formatC (opField w) (if opField w = 0b10#2 then dataField w else 0x00#8) := by
  rcases decode_cases w with ⟨hop, hdecode⟩ | ⟨hop, hdecode⟩ | ⟨hop, hdecode⟩ | ⟨hop, hdecode⟩ <;>
    simp [hop, hdecode, encode]

theorem encode_decode_eq_self_iff (w : CmdWord) :
    encode (decode w) = w ↔ opField w = 0b10#2 ∨ dataField w = 0x00#8 := by
  calc encode (decode w) = w
      ↔ formatC (opField w) (if opField w = 0b10#2 then dataField w else 0x00#8) =
          formatC (opField w) (dataField w) := by rw [encode_decode, formatC_fields]
    _ ↔ (if opField w = 0b10#2 then dataField w else 0x00#8) = dataField w := by simp [formatC_inj]
    _ ↔ opField w = 0b10#2 ∨ dataField w = 0x00#8 := by
        split
        next hop => simp [hop]
        next hop => simp [hop, eq_comm]

end Sys2Proof

namespace Sys2Proof.Machine

/-! ## An accepted command -/

/-- An edge whose event is a command runs it (R61). -/
theorem step_of_command {s : State} {e : PortSample} {rest : List PortSample} {i : Instr}
    (h : s.input = e :: rest) (hev : e.event? s.handshake = some (.command i)) :
    step s = exec i { regs := s.regs, handshake := s.handshake.after e, input := rest } := by
  rw [step_cons h, hev, exec_eq]
  rfl

/-- An edge without an event leaves the registers (R61). -/
theorem step_of_no_event {s : State} {e : PortSample} {rest : List PortSample}
    (h : s.input = e :: rest) (hev : e.event? s.handshake = none) :
    step s = .next { regs := s.regs, handshake := s.handshake.after e, input := rest } := by
  rw [step_cons h, hev]
  rfl

theorem Handshake.after_offer (h : Handshake) (w : CmdWord) : h.after (.offer w) = .working := by
  simp [Handshake.after, PortSample.accepts, PortSample.cmdReady, PortSample.offer]

/-- A step on an offered word sees the word through the decoder only. -/
theorem step_offerNext (s : State) (w : CmdWord) :
    step (s.offerNext w) = exec (decode w) { s with handshake := .working } := by
  rw [step_of_command (s.offerNext_input w) (PortSample.event_offer w _), Handshake.after_offer]
  rfl

/-! ## Text that reassembles -/

theorem hexValue_hexDigit {n : Nat} (h : n < 16) : hexValue (hexDigit n) = some n := by
  revert n; decide

/-- The two digits the disassembler writes are read as the byte they were written for (R68). -/
theorem hexByte_hexDigits (c : Byte) :
    hexByte (hexDigit (c.toNat / 16)) (hexDigit (c.toNat % 16)) = some c := by
  have hhigh : c.toNat / 16 < 16 := by omega
  have hlow : c.toNat % 16 < 16 := by omega
  simp [hexByte, hexValue_hexDigit hhigh, hexValue_hexDigit hlow, Nat.div_add_mod]

theorem readLine_pushHex {h l : Char} {c : Byte} (hbyte : hexByte h l = some c) :
    readLine ['P', 'U', 'S', 'H', ' ', '0', 'x', h, l] = some (some (.push (.hex c))) := by
  simp [readLine, readOperand, skipBlanks, atEnd, hbyte]

theorem assembleLine_commandText (i : Instr) : assembleLine (commandText i) = some [encode i] := by
  cases i with
  | nop => rfl
  | clr => rfl
  | push c =>
    have hread : readLine (commandText (.push c)) = some (some (.push (.hex c))) :=
      readLine_pushHex (hexByte_hexDigits c)
    rw [assembleLine, hread]
    rfl
  | fin => rfl

theorem hexDigit_eq_getD {n : Nat} (h : n < 16) :
    hexDigit n =
      ['0', '1', '2', '3', '4', '5', '6', '7', '8', '9', 'A', 'B', 'C', 'D', 'E', 'F'].getD n ' ' := by
  revert n; decide

/-! ## The obligations -/

/-- Settles O4: decoder, disassembler and step see the field `data` only through the decoder, which reads it for
`op = 10` alone. -/
theorem ignoredDataHasNoEffect : Obligations.IgnoredDataHasNoEffect := by
  refine ⟨fun op d d' hop => ?_, rfl, rfl, rfl, fun w s => ?_⟩
  · have hdecode := decode_formatC_ignores_data hop d d'
    refine ⟨hdecode, congrArg commandText hdecode, ?_, fun s => ?_⟩
    · simp [encode_decode, opField_formatC, hop]
    · rw [step_offerNext, step_offerNext, hdecode]
  · exact ⟨_, (step_offerNext s w).trans (exec_eq _ _)⟩

/-- Settles O2, by the case split over the opcode, which is what the mask of R62 leaves of a word. -/
theorem everyWordIsTheCommandOfItsRow : Obligations.EveryWordIsTheCommandOfItsRow := by
  intro w
  have hrow := and_rowMask_eq_iff w
  obtain ⟨hnop, hclr, hpush, hfin⟩ := opField_iff_decode w
  refine ⟨(hrow 0b00#2).trans hnop, hnop, (hrow 0b01#2).trans hclr, hclr,
    (hrow 0b10#2).trans hpush, hpush, (hrow 0b11#2).trans hfin, hfin, ?_⟩
  exact (decode_cases w).imp And.right (.imp And.right (.imp And.right And.right))

/-- Settles O3: the operand is the field `data`, and the encoded `PUSH c` has the operand `c`. -/
theorem pushOperandIsTheZeroExtendedByte : Obligations.PushOperandIsTheZeroExtendedByte := by
  refine ⟨fun w hop => ⟨dataField w, ?_, ?_, ?_⟩, fun c => ⟨encode (.push c), decode_encode _⟩⟩
  · obtain ⟨-, -, hpush, -⟩ := opField_iff_decode w
    exact hpush.1 hop
  · rw [zext32_toNat, dataField_toNat]
  · exact dataField_getLsbD (by decide) w

/-- Settles O6: the text is that of the decoded command, and every command's text assembles to its canonical word. -/
theorem disassemblyReassembles : Obligations.DisassemblyReassembles := by
  intro w
  obtain ⟨hnop, hclr, hpush, hfin⟩ := opField_iff_decode w
  refine ⟨fun hop => congrArg commandText (hnop.1 hop), fun hop => congrArg commandText (hclr.1 hop),
    fun hop => ?_, fun hop => congrArg commandText (hfin.1 hop),
    assembleLine_commandText (decode w), decode_encode _, encode_decode_eq_self_iff w⟩
  have hhigh : (dataField w).toNat / 16 < 16 := by omega
  have hlow : (dataField w).toNat % 16 < 16 := by omega
  rw [disassemble, hpush.1 hop, commandText, hexDigit_eq_getD hhigh, hexDigit_eq_getD hlow]

/-- Settles O9, by the three ways an edge can be read. -/
theorem stepRunsTheAcceptedCommand : Obligations.StepRunsTheAcceptedCommand := by
  intro s e rest h hrst
  rcases e.event_cases s.handshake with ⟨hrst', -, -⟩ | ⟨-, hvalid, hready, hev, hafter⟩ | ⟨-, hno, hev, -⟩
  · simp [hrst] at hrst'
  · exact ⟨fun _ => hafter ▸ step_of_command h hev, fun hno => by simp [hvalid, hready] at hno⟩
  · exact ⟨fun ⟨hvalid, hready⟩ => by simp [hvalid, hready] at hno,
      fun _ => ⟨_, step_of_no_event h hev, rfl, rfl⟩⟩

end Sys2Proof.Machine

namespace Sys2Proof.Machine

/-! ## The datapath bit by bit (R81, R89) -/

theorem zext32_getLsbD (b : Byte) (i : Nat) : (zext32 b).getLsbD i = b.getLsbD i := by
  rw [zext32, BitVec.getLsbD_setWidth]
  by_cases hi : i < 32
  · simp [hi]
  · simp [hi, BitVec.getLsbD_of_ge b i (by omega)]

theorem xor32_getLsbD (a b : Word) (i : Nat) :
    (xor32 a b).getLsbD i = (a.getLsbD i ^^ b.getLsbD i) :=
  BitVec.getLsbD_xor

theorem xor32_zext32_low (v : Word) (c : Byte) : (xor32 v (zext32 c)).setWidth 8 = v.setWidth 8 ^^^ c := by
  have hlow : (zext32 c).setWidth 8 = c := (BitVec.setWidth_setWidth_of_le c (by decide)).trans c.setWidth_eq
  rw [xor32, BitVec.setWidth_xor, hlow]

/-! ## The remainder (R85) -/

theorem umodK_le (a : Word) : (umodK a).toNat ≤ 1336 := by
  rw [umodK_toNat]
  omega

/-! ## The seed (R83) -/

/-- `K_XOR` is `0x13` above the low byte `0x37`, and a widened byte is zero there: only the low byte varies. -/
theorem xor32_zext32_kXor_toNat (b : Byte) :
    (xor32 (zext32 b) Config.kXor).toNat = 4864 + (b ^^^ 0x37#8).toNat := by
  have hk : Config.kXor = 0x13#24 ++ 0x37#8 := by decide
  have hb : zext32 b = 0#24 ++ b := BitVec.setWidth_eq_append (by decide)
  have hlow := (b ^^^ 0x37#8).isLt
  rw [xor32, hk, hb, BitVec.xor_append, BitVec.zero_xor, BitVec.toNat_append,
    ← Nat.shiftLeft_add_eq_or_of_lt hlow]
  rfl

theorem seed_toNat (b : Byte) : (seed b).toNat = 6226157 + (b ^^^ 0x37#8).toNat := by
  have hlow := (b ^^^ 0x37#8).isLt
  have hk : Config.kAdd.toNat = 6221293 := rfl
  rw [seed, add32_toNat, xor32_zext32_kXor_toNat, hk]
  omega

theorem seed_bounds (b : Byte) : 6226157 ≤ (seed b).toNat ∧ (seed b).toNat ≤ 6226412 := by
  have hlow := (b ^^^ 0x37#8).isLt
  rw [seed_toNat]
  omega

theorem seed_injective {b b' : Byte} (h : seed b = seed b') : b = b' := by
  have hnat := congrArg BitVec.toNat h
  rw [seed_toNat, seed_toNat] at hnat
  exact (BitVec.xor_left_inj _).1 (BitVec.eq_of_toNat_eq (Nat.add_left_cancel hnat))

/-! ## The fold of a sequence (R87, R88) -/

theorem foldAll_append (v : Word) (A B : List Byte) : foldAll v (A ++ B) = foldAll (foldAll v A) B := by
  induction A generalizing v with
  | nil => rfl
  | cons c cs ih => exact ih (fold v c)

theorem fold_toNat_of_lt {v : Word} {c : Byte} (h : v.toNat + (umodK (xor32 v (zext32 c))).toNat < 2 ^ 32) :
    (fold v c).toNat = v.toNat + (umodK (xor32 v (zext32 c))).toNat := by
  rw [fold, add32_toNat, Nat.mod_eq_of_lt h]

/-- A fold that does not wrap adds at most 1336, so `n` of them add at most `1336 * n`. -/
theorem foldAll_bounds_of_noWrap {v : Word} {L : List Byte} (h : NoWrap v L) :
    v.toNat ≤ (foldAll v L).toNat ∧ (foldAll v L).toNat ≤ v.toNat + 1336 * L.length := by
  induction L generalizing v with
  | nil => exact ⟨Nat.le_refl _, Nat.le_refl _⟩
  | cons c cs ih =>
    obtain ⟨hfirst, hrest⟩ := h
    have hfold := fold_toNat_of_lt hfirst
    have hrem := umodK_le (xor32 v (zext32 c))
    have hih := ih hrest
    rw [foldAll_cons, List.length_cons]
    omega

theorem noWrap_of_room {v : Word} {L : List Byte} (h : v.toNat + 1336 * L.length < 2 ^ 32) : NoWrap v L := by
  induction L generalizing v with
  | nil => trivial
  | cons c cs ih =>
    rw [List.length_cons] at h
    have hrem := umodK_le (xor32 v (zext32 c))
    have hfirst : v.toNat + (umodK (xor32 v (zext32 c))).toNat < 2 ^ 32 := by omega
    refine ⟨hfirst, ih ?_⟩
    rw [fold_toNat_of_lt hfirst]
    omega

/-! ## The reference function (R86) -/

theorem serial_of_short {L : List Byte} (h : L.length < 4) : serial L = .failed .invalidInput :=
  if_pos h

theorem serial_of_long {L : List Byte} (h : 4 ≤ L.length) :
    serial L = .serial (foldAll (seed (L.getD 3 0)) L) :=
  if_neg (Nat.not_lt.2 h)

theorem noWrap_seed_of_room {L : List Byte} (h : 6226412 + 1336 * L.length < 2 ^ 32) (b : Byte) :
    NoWrap (seed b) L := by
  have hseed := seed_bounds b
  exact noWrap_of_room (by omega)

/-! ## The obligations -/

/-- Settles O38: the remainder is `a.toNat % 1337`, the one remainder of the division on natural numbers. -/
theorem remainderIsUnsignedAndUnique : Obligations.RemainderIsUnsignedAndUnique := by
  refine ⟨fun a => ⟨umodK_le a, a.toNat / 1337, ?_⟩, fun a q r hr ha => ?_, by decide, by decide, by decide⟩
  · rw [umodK_toNat, Nat.div_add_mod]
  · rw [umodK_toNat, ha, Nat.mul_add_mod, Nat.mod_eq_of_lt (by omega)]

/-- Settles O39: the seed is 6226157 plus the byte `b ^ 0x37`, which takes each byte value once. -/
theorem seedFormulaAndRange : Obligations.SeedFormulaAndRange := by
  refine ⟨fun b => rfl, fun b => ?_, seed_bounds, fun b b' => seed_injective, by decide, by decide, by decide⟩
  have hxor : (xor32 (zext32 b) 0x1337#32).toNat = 4864 + (b ^^^ 0x37#8).toNat := xor32_zext32_kXor_toNat b
  have hlow := (b ^^^ 0x37#8).isLt
  rw [seed_toNat, hxor]
  omega

/-- Settles O42: the equations of `foldAll` and `foldAll_append`. -/
theorem foldAllSplits : Obligations.FoldAllSplits :=
  ⟨foldAll_nil, foldAll_cons, foldAll_append⟩

/-- Settles O44: the bounds of a fold without a wrap, and the room that a seed leaves for such folds. -/
theorem serialBounds : Obligations.SerialBounds := by
  refine ⟨fun L v hlen hno hv => ?_, fun L _ hroom => noWrap_seed_of_room hroom _, fun n => by omega,
    fun L hlen hmax => ⟨_, serial_of_long hlen, ?_⟩, by decide, by decide⟩
  · cases (serial_of_long hlen).symm.trans hv
    exact foldAll_bounds_of_noWrap hno
  · have hseed := seed_bounds (L.getD 3 0)
    have hfold := foldAll_bounds_of_noWrap (noWrap_seed_of_room (L := L) (by omega) (L.getD 3 0))
    omega

/-- Settles O35: the number is kept, and so is every bit, those from 8 on being zero in a byte. -/
theorem byteIsWidenedWithoutSign : Obligations.ByteIsWidenedWithoutSign := by
  refine fun b => ⟨zext32_toNat b, ?_, fun i hi => ?_, fun i _ => zext32_getLsbD b i⟩
  · have hb := b.isLt
    rw [zext32_toNat]
    omega
  · rw [zext32_getLsbD, BitVec.getLsbD_of_ge b i hi]

/-- Settles O36, with the two examples by evaluation. -/
theorem additionWrapsModulo32Bits : Obligations.AdditionWrapsModulo32Bits :=
  ⟨add32_toNat, by decide, by decide⟩

/-- Settles O37, bit by bit; a widened byte has no bit from 8 on. -/
theorem xorIsBitwise : Obligations.XorIsBitwise := by
  refine ⟨fun a b i _ => ?_, fun v c i hi => ?_, xor32_zext32_low⟩
  · rw [xor32_getLsbD, bne_iff_ne]
  · rw [xor32_getLsbD, zext32_getLsbD, BitVec.getLsbD_of_ge c i hi, Bool.xor_false]

/-- Settles O43: the length test of `serial`, read both ways; of four bytes or more the one at index 3 is `b3`. -/
theorem serialIsSeedThenFoldAll : Obligations.SerialIsSeedThenFoldAll :=
  ⟨fun _ => serial_of_short, fun _ _ _ _ _ => serial_of_long (by simp), by decide⟩

end Sys2Proof.Machine

namespace Sys2Proof.Machine

/-! ## The movement between phases (R102) -/

@[simp] theorem Regs.phase_reset : Regs.reset.phase = some .absorb := rfl

theorem Regs.ended_of_phase {r : Regs} (h : r.phase = some .done ∨ r.phase = some .fail) : r.ended = true := by
  cases hended : r.ended with
  | true => rfl
  | false => simp [Regs.phase_eq_absorb.2 hended] at h

@[simp] theorem Regs.absorb_phase (c : Byte) (r : Regs) : (r.absorb c).phase = r.phase := by
  simp [Regs.phase]

theorem Regs.publish_phase {r : Regs} (h : r.phase = some .absorb) : r.publish.phase = some .done := by
  obtain ⟨-, herr⟩ := Regs.ended_eq_false.1 (Regs.phase_eq_absorb.1 h)
  simp [Regs.phase, herr]

theorem Regs.raise_phase {r : Regs} (h : r.phase = some .absorb) (e : Exception) :
    (r.raise e).phase = some .fail := by
  obtain ⟨hdone, -⟩ := Regs.ended_eq_false.1 (Regs.phase_eq_absorb.1 h)
  simp [Regs.phase, hdone]

theorem Regs.absorb_n_of_short {r : Regs} (h : r.n ≠ .four) (c : Byte) :
    (r.absorb c).n.toNat = r.n.toNat + 1 := by
  rcases r.absorb_cases c with ⟨hn, ha⟩ | ⟨hn, ha⟩ | ⟨hn, ha⟩ | ⟨hn, ha⟩ | ⟨hn, -⟩
  · rw [ha, hn]; rfl
  · rw [ha, hn]; rfl
  · rw [ha, hn]; rfl
  · rw [ha, hn]; rfl
  · exact absurd hn h

theorem Regs.absorb_n_of_long {r : Regs} (h : r.n = .four) (c : Byte) : (r.absorb c).n = .four := by
  simp [Regs.absorb, h]

/-! ## The commands by phase -/

theorem exec_push_of_absorb {s : State} (h : s.regs.phase = some .absorb) (c : Byte) :
    exec (.push c) s = .next { s with regs := s.regs.absorb c } := by
  rw [exec_eq, commandEffect, Regs.phase_eq_absorb.1 h, if_neg Bool.false_ne_true]

theorem exec_fin_of_absorb {s : State} (h : s.regs.phase = some .absorb) :
    exec .fin s =
      .next { s with regs := if s.regs.n = .four then s.regs.publish else s.regs.raise .invalidInput } := by
  rw [exec_eq, ← eventEffect_fin (Regs.phase_eq_absorb.1 h)]
  rfl

/-- Only `CLR` leaves a terminal phase by a command (R102). -/
theorem exec_of_ended {s : State} {i : Instr} (h : s.regs.ended = true) (hi : i ≠ .clr) :
    exec i s = .next s := by
  have hev : ¬ (Event.command i).startsLogin := by simp [Event.startsLogin, hi]
  calc exec i s = .next { s with regs := eventEffect (.command i) s.regs } := exec_eq i s
    _ = .next s := by rw [eventEffect_of_ended h hev]

/-! ## The obligations -/

/-- Settles O26: absorbing a byte keeps the phase and moves the counter, the `FIN` of a login sets the flag that the
counter asks for, and an ended login changes only by `CLR` or reset. -/
theorem phaseTransitionTable : Obligations.PhaseTransitionTable := by
  refine ⟨fun s => rfl, fun s => ⟨_, rfl, rfl, rfl⟩, fun s => ⟨_, rfl, rfl, rfl⟩,
    fun s hphase hn => ⟨fun c => ?_, ?_⟩, fun s hphase hn => ⟨fun c => ?_, ?_⟩, fun s hphase => ?_⟩
  · exact ⟨_, exec_push_of_absorb hphase c, (Regs.absorb_phase c _).trans hphase, Regs.absorb_n_of_short hn c⟩
  · exact ⟨_, exec_fin_of_absorb hphase, by simp only [if_neg hn, Regs.raise_phase hphase]⟩
  · exact ⟨_, exec_push_of_absorb hphase c, (Regs.absorb_phase c _).trans hphase, Regs.absorb_n_of_long hn c⟩
  · exact ⟨_, exec_fin_of_absorb hphase, by simp only [if_pos hn, Regs.publish_phase hphase]⟩
  · have hended := Regs.ended_of_phase hphase
    exact ⟨fun c => exec_of_ended hended nofun, exec_of_ended hended nofun⟩

/-- Settles O18: the decoder reads the opcode alone, and the effect of `NOP` is the identity. -/
theorem nopChangesNothing : Obligations.NopChangesNothing :=
  fun d s => ⟨decode_formatC 0b00#2 d, by decide, exec_eq .nop s⟩

/-- Settles O19: the decoder reads the opcode alone, and the effect of `CLR` is the constant reset value. -/
theorem clrLeavesTheResetState : Obligations.ClrLeavesTheResetState :=
  fun d s => ⟨decode_formatC 0b01#2 d, by decide, exec_eq .clr s, exec_eq .clr s⟩

end Sys2Proof.Machine

namespace Sys2Proof.Machine

/-! ## The registers as the image of a login (R31, R113) -/

@[simp] theorem Login.image_empty : Login.empty.image = Regs.reset := rfl

@[simp] theorem Count.ofLength_eq_four {k : Nat} : Count.ofLength k = .four ↔ 4 ≤ k := by
  match k with
  | 0 | 1 | 2 | 3 => simp [Count.ofLength]
  | k + 4 => simp [Count.ofLength]

@[simp] theorem Login.image_n_eq_four {l : Login} : l.image.n = .four ↔ 4 ≤ l.bytes.length :=
  Count.ofLength_eq_four

@[simp] theorem Login.image_ended (l : Login) : l.image.ended = l.ended := by
  cases hended : l.ended
  · simp [Regs.ended, Login.image, hended]
  · rcases Nat.lt_or_ge l.bytes.length 4 with hlen | hlen <;> simp [Regs.ended, Login.image, hended, hlen]

/-- The last row of R113's table: at four bytes and more, `V` holds the fold of them all. -/
theorem Login.image_long (a0 a1 a2 a3 : Byte) (more : List Byte) :
    Login.image ⟨a0 :: a1 :: a2 :: a3 :: more, false⟩ =
      { v := foldAll (seed a3) (a0 :: a1 :: a2 :: a3 :: more), pre0 := a0, pre1 := a1, pre2 := a2, n := .four,
        done := false, err := false } := by
  simp [Login.image, Count.ofLength]

/-- Absorbing a byte appends it to the login: the prefix waits for its seed byte, and the fourth byte folds all four
at once (R110). -/
theorem Login.image_absorb (bytes : List Byte) (c : Byte) :
    (Login.image ⟨bytes, false⟩).absorb c = Login.image ⟨bytes ++ [c], false⟩ := by
  match bytes with
  | [] => rfl
  | [_] => rfl
  | [_, _] => rfl
  | [_, _, _] => rfl
  | a0 :: a1 :: a2 :: a3 :: more =>
    simp only [List.cons_append, Login.image_long, Regs.absorb, Regs.mk.injEq, and_true]
    exact (foldAll_concat (seed a3) (a0 :: a1 :: a2 :: a3 :: more) c).symm

/-- Ending a login sets the flag that its length asks for (R120). -/
theorem Login.image_fin (bytes : List Byte) :
    eventEffect (.command .fin) (Login.image ⟨bytes, false⟩) = Login.image ⟨bytes, true⟩ := by
  rw [eventEffect_fin (Login.image_ended _)]
  rcases Nat.lt_or_ge bytes.length 4 with hlen | hlen
  · simp [Login.image, Regs.raise, hlen, Nat.not_le.2 hlen]
  · simp [Login.image, Regs.publish, hlen, Nat.not_lt.2 hlen]

/-- The block refines the login it is given, event by event. -/
theorem eventEffect_image (ev : Event) (l : Login) : eventEffect ev l.image = (l.next ev).image := by
  match ev, l with
  | .reset, _ => rfl
  | .command .nop, _ => rfl
  | .command .clr, _ => rfl
  | .command (.push c), ⟨bytes, false⟩ => exact Login.image_absorb bytes c
  | .command (.push _), ⟨_, true⟩ => exact eventEffect_of_ended (Login.image_ended _) (by simp [Event.startsLogin])
  | .command .fin, ⟨bytes, false⟩ => exact Login.image_fin bytes
  | .command .fin, ⟨_, true⟩ => exact eventEffect_of_ended (Login.image_ended _) (by simp [Event.startsLogin])

theorem eventsEffect_image (evs : List Event) (l : Login) :
    eventsEffect evs l.image = (l.after evs).image := by
  induction evs generalizing l with
  | nil => rfl
  | cons ev evs ih => exact (congrArg (eventsEffect evs) (eventEffect_image ev l)).trans (ih (l.next ev))

/-! ## Runs that absorb bytes (R113, R121) -/

theorem eventsEffect_cons (ev : Event) (evs : List Event) (r : Regs) :
    eventsEffect (ev :: evs) r = eventsEffect evs (eventEffect ev r) := rfl

theorem eventsEffect_concat (evs : List Event) (ev : Event) (r : Regs) :
    eventsEffect (evs ++ [ev]) r = eventEffect ev (eventsEffect evs r) :=
  List.foldl_append

/-- Events inside a login collect exactly the bytes they push. -/
theorem Login.after_insideLogin (evs : List Event) (bytes : List Byte) (h : ∀ ev ∈ evs, ev.insideLogin) :
    Login.after ⟨bytes, false⟩ evs = ⟨bytes ++ pushedBytes evs, false⟩ := by
  induction evs generalizing bytes with
  | nil => simp [Login.after, pushedBytes]
  | cons ev evs ih =>
    obtain ⟨hev, hevs⟩ := List.forall_mem_cons.1 h
    rcases hev with rfl | ⟨c, rfl⟩
    · exact ih bytes hevs
    · exact (ih (bytes ++ [c]) hevs).trans (by simp [pushedBytes])

/-- What a run absorbs determines the registers, whatever they held before it (R113). -/
theorem eventsEffect_of_absorbs {evs : List Event} {A : List Byte} (h : Absorbs evs A) (r : Regs) :
    eventsEffect evs r = Login.image ⟨A, false⟩ := by
  obtain ⟨start, body, rfl, hstart, hbody, rfl⟩ := h
  calc eventsEffect (start :: body) r
      = eventsEffect body Login.empty.image := by
        rw [eventsEffect_cons, eventEffect_of_startsLogin hstart, Login.image_empty]
    _ = (Login.after Login.empty body).image := eventsEffect_image body Login.empty
    _ = Login.image ⟨pushedBytes body, false⟩ := congrArg Login.image (Login.after_insideLogin body [] hbody)

/-- What a run ended by `FIN` leaves in the registers (R121). -/
theorem eventsEffect_of_isRun {evs : List Event} {L : List Byte} (h : IsRun evs L) (r : Regs) :
    eventsEffect evs r = Login.image ⟨L, true⟩ := by
  obtain ⟨front, rfl, hfront⟩ := h
  rw [eventsEffect_concat, eventsEffect_of_absorbs hfront, Login.image_fin]

theorem Login.image_outputs_of_long {L : List Byte} (h : 4 ≤ L.length) :
    (Login.image ⟨L, true⟩).outputs =
      { doneO := true, errO := false, serialO := foldAll (seed (L.getD 3 0)) L } := by
  simp [Regs.outputs, Login.image, h, Nat.not_lt.2 h]

theorem Login.image_outputs_of_short {L : List Byte} (h : L.length < 4) :
    (Login.image ⟨L, true⟩).outputs = { doneO := false, errO := true, serialO := 0#32 } := by
  simp [Regs.outputs, Login.image, h, Nat.not_le.2 h]

/-! ## The word of PUSH -/

theorem encode_push (c : Byte) : encode (.push c) = 0x200#10 + c.setWidth 10 := by
  have hc := c.isLt
  apply BitVec.eq_of_toNat_eq
  rw [encode, formatC, BitVec.toNat_append, ← Nat.shiftLeft_add_eq_or_of_lt hc, BitVec.toNat_add,
    BitVec.toNat_setWidth]
  simp only [BitVec.toNat_ofNat, Nat.shiftLeft_eq]
  omega

/-! ## The obligations -/

/-- Settles O47: the registers are the image of the login of the bytes absorbed, read off row by row. -/
theorem stateIsAFunctionOfTheBytesAbsorbed : Obligations.StateIsAFunctionOfTheBytesAbsorbed := by
  intro s xs rest A hinput habsorbs
  refine ⟨_, runSteps_events s xs rest hinput, rfl, (eventsEffect_of_absorbs habsorbs s.regs).trans ?_⟩
  match A with
  | [] => rfl
  | [_] => rfl
  | [_, _] => rfl
  | [_, _, _] => rfl
  | a0 :: a1 :: a2 :: a3 :: more => exact Login.image_long a0 a1 a2 a3 more

/-- Settles O49: the run leaves the image of its ended login, whose `V` is the serial where the login is long enough. -/
theorem blockComputesTheSerial : Obligations.BlockComputesTheSerial := by
  intro s xs rest L hinput hrun
  have hregs := eventsEffect_of_isRun hrun s.regs
  refine ⟨_, runSteps_events s xs rest hinput, rfl, fun hlong => ⟨_, serial_of_long hlong, ?_⟩, fun hshort => ?_⟩
  · exact (congrArg Regs.outputs hregs).trans (Login.image_outputs_of_long hlong)
  · exact (congrArg Regs.outputs hregs).trans (Login.image_outputs_of_short hshort)

/-- Settles O20: an ended login ignores the byte, else the counter selects one of the five ways of absorbing it. -/
theorem pushAbsorbsOneByte : Obligations.PushAbsorbsOneByte := by
  refine fun c s => ⟨decode_formatC 0b10#2 c, encode_push c, ?_⟩
  cases hended : s.regs.ended with
  | true => rw [exec_of_ended (i := .push c) hended nofun, if_pos (Regs.ended_eq_true.1 hended)]
  | false =>
    have hflags : ¬ (s.regs.done = true ∨ s.regs.err = true) := by simp [← Regs.ended_eq_true, hended]
    rw [exec_push_of_absorb (Regs.phase_eq_absorb.2 hended), if_neg hflags]
    cases hn : s.regs.n <;> simp [Regs.absorb, hn]

end Sys2Proof.Machine

namespace Sys2Proof.Machine

/-! ## The end of a login, and after it (R120, R122) -/

/-- `FIN` performs no arithmetic: `V` is what the last `PUSH` left. -/
theorem eventEffect_fin_v (r : Regs) : (eventEffect (.command .fin) r).v = r.v := by
  cases hended : r.ended with
  | true => rw [eventEffect_of_ended hended (by simp [Event.startsLogin])]
  | false =>
    rw [eventEffect_fin hended]
    split
    · exact r.publish_v
    · exact r.raise_v _

/-- A zero `V` shows as zero, whether or not the gate of R29 is open. -/
theorem Regs.outputs_serialO_of_v_zero {r : Regs} (h : r.v = 0#32) : r.outputs.serialO = 0#32 := by
  simp [Regs.outputs, h]

/-- An ended login stands through every history that starts no new one. -/
theorem eventsEffect_of_ended {evs : List Event} {r : Regs} (hr : r.ended = true)
    (h : ∀ ev ∈ evs, ¬ ev.startsLogin) : eventsEffect evs r = r := by
  induction evs with
  | nil => rfl
  | cons ev evs ih =>
    obtain ⟨hev, hevs⟩ := List.forall_mem_cons.1 h
    rw [eventsEffect_cons, eventEffect_of_ended hr hev, ih hevs]

/-! ## The obligations -/

/-- Settles O21: an ended login ignores `FIN`, else the counter selects the flag; no case writes `V`, which the
invariants hold at zero for a short login. -/
theorem finPublishesOrRaises : Obligations.FinPublishesOrRaises := by
  refine fun d s => ⟨decode_formatC 0b11#2 d, by decide, ?_, fun hinv hshort => ?_⟩
  · cases hended : s.regs.ended with
    | true => rw [exec_of_ended (i := .fin) hended nofun, if_pos (Regs.ended_eq_true.1 hended)]
    | false =>
      have hflags : ¬ (s.regs.done = true ∨ s.regs.err = true) := by simp [← Regs.ended_eq_true, hended]
      rw [exec_fin_of_absorb (Regs.phase_eq_absorb.2 hended), if_neg hflags]
      split <;> rfl
  · have hv : (eventEffect (.command .fin) s.regs).v = 0#32 :=
      (eventEffect_fin_v s.regs).trans (hinv.v_zero hshort)
    exact ⟨_, exec_eq .fin s, hv, Regs.outputs_serialO_of_v_zero hv⟩

/-- Settles O32: the run applies the events of its edges, and none of them touches an ended login. -/
theorem outcomeStandsUntilClrOrReset : Obligations.OutcomeStandsUntilClrOrReset := by
  intro s xs rest hinput hflags hevents
  have hregs := eventsEffect_of_ended (Regs.ended_eq_true.2 hflags) hevents
  exact ⟨_, runSteps_events s xs rest hinput, hregs, rfl⟩

end Sys2Proof.Machine

namespace Sys2Proof.Machine

/-! ## InvalidInput: its entry, its record, and the commands after it (R131, R133, R143) -/

/-- Before the end of a login, the raised exception shows as `err_o` alone: the gate `DONE` hides `V` (R29). -/
theorem Regs.raise_outputs {r : Regs} (hdone : r.done = false) (e : Exception) :
    (r.raise e).outputs = { doneO := false, errO := true, serialO := 0#32 } := by
  simp [Regs.outputs, hdone]

/-- The recorded exception is the flag `ERR` (R131). -/
theorem Regs.cause_of_err {r : Regs} (h : r.err = true) : r.cause = some .invalidInput := if_pos h

theorem Regs.cause_of_not_err {r : Regs} (h : r.err = false) : r.cause = none := by
  rw [Regs.cause, h, if_neg Bool.false_ne_true]

theorem Regs.causeCode_of_cause {r : Regs} {e : Exception} (h : r.cause = some e) : r.causeCode = e.code := by
  rw [Regs.causeCode, h]

theorem Regs.causeCode_of_no_cause {r : Regs} (h : r.cause = none) : r.causeCode = 0 := by
  rw [Regs.causeCode, h]

/-! ## The obligations -/

/-- Settles O27: `FIN` raises the exception, which writes `ERR` alone; `DONE` is 0 by the phase, and `V` by the
invariants of a short login. -/
theorem invalidInputEntrySetsOnlyErr : Obligations.InvalidInputEntrySetsOnlyErr := by
  intro s hinv hphase hshort
  obtain ⟨hdone, -⟩ := Regs.ended_eq_false.1 (Regs.phase_eq_absorb.1 hphase)
  have hfin : exec .fin s = .next { s with regs := s.regs.raise .invalidInput } := by
    rw [exec_fin_of_absorb hphase, if_neg hshort]
  exact ⟨_, hfin, rfl, hdone, hinv.v_zero hshort, Regs.raise_outputs hdone .invalidInput⟩

/-- Settles O28: the recorded exception is read off `ERR`, and its code off the record. -/
theorem causeIsRecordedInErr : Obligations.CauseIsRecordedInErr := by
  refine fun r => ⟨fun herr => ?_, fun herr => ?_⟩
  · have hcause := Regs.cause_of_err herr
    exact ⟨hcause, Regs.causeCode_of_cause hcause⟩
  · have hcause := Regs.cause_of_not_err herr
    exact ⟨hcause, Regs.causeCode_of_no_cause hcause⟩

/-- Settles O31: an ended login ignores every command but `CLR`, and the decoder reads the opcode alone. -/
theorem commandsAfterTheEndAreIgnored : Obligations.CommandsAfterTheEndAreIgnored := by
  refine ⟨fun c s hflags => ?_, fun d => ?_⟩
  · have hended := Regs.ended_eq_true.2 hflags
    exact ⟨exec_of_ended hended nofun, exec_of_ended hended nofun⟩
  · exact ⟨decode_formatC 0b00#2 d, decode_formatC 0b01#2 d, decode_formatC 0b11#2 d⟩

end Sys2Proof.Machine

namespace Sys2Proof.Machine

/-! ## `NOP`s and idle edges leave no trace in the registers (R61, R100, R156) -/

/-- The registers after a history are those after its events other than `NOP`. -/
theorem eventsEffect_withoutNops (evs : List Event) (r : Regs) :
    eventsEffect (withoutNops evs) r = eventsEffect evs r := by
  induction evs generalizing r with
  | nil => rfl
  | cons ev evs ih =>
    by_cases hnop : ev = .command .nop
    · have hskip : withoutNops (ev :: evs) = withoutNops evs := List.filter_cons_of_neg (by simpa using hnop)
      subst hnop
      rw [hskip, ih]
      rfl
    · have hkeep : withoutNops (ev :: evs) = ev :: withoutNops evs :=
        List.filter_cons_of_pos (decide_eq_true hnop)
      rw [hkeep, eventsEffect_cons, ih, eventsEffect_cons]

/-! ## The reset edge (R150, R151) -/

theorem PortSample.cmdReady_of_rst {e : PortSample} (hrst : e.rst = true) (h : Handshake) :
    e.cmdReady h = false := by
  simp [PortSample.cmdReady, hrst]

theorem PortSample.accepts_of_rst {e : PortSample} (hrst : e.rst = true) (h : Handshake) :
    e.accepts h = false := by
  simp [PortSample.accepts, hrst]

/-- A reset edge leaves nothing of the state before it but the host's coming samples. -/
theorem step_of_rst {s : State} {e : PortSample} {rest : List PortSample}
    (hinput : s.input = e :: rest) (hrst : e.rst = true) :
    step s = .next { regs := Regs.reset, handshake := .afterReset, input := rest } := by
  rcases e.event_cases s.handshake with ⟨-, hev, hafter⟩ | ⟨hrst', -⟩ | ⟨hrst', -⟩
  · rw [step_cons hinput, hev, hafter]
    rfl
  all_goals simp [hrst] at hrst'

/-! ## Edges at which the host offers nothing (R61, R150) -/

theorem PortSample.event_of_not_accepts {e : PortSample} {h : Handshake} (hrst : e.rst = false)
    (hacc : e.accepts h = false) : e.event? h = none := by
  simp [PortSample.event?, hrst, hacc]

theorem PortSample.accepts_of_silent {e : PortSample} (hvalid : e.cmdValid = false) (h : Handshake) :
    e.accepts h = false := by
  simp [PortSample.accepts, hvalid]

/-- An idle block stays idle, without an event, while it is neither reset nor offered a command. -/
theorem idle_of_silent {xs : List PortSample} (hxs : ∀ e ∈ xs, e.rst = false ∧ e.cmdValid = false) :
    eventsOf .idle xs = [] ∧ handshakeAfter .idle xs = .idle := by
  induction xs with
  | nil => exact ⟨rfl, rfl⟩
  | cons e xs ih =>
    obtain ⟨⟨hrst, hvalid⟩, hrest⟩ := List.forall_mem_cons.1 hxs
    have hacc := PortSample.accepts_of_silent hvalid .idle
    have hafter : Handshake.idle.after e = .idle := Handshake.after_idle nofun hrst hacc
    simpa [eventsOf, handshakeAfter, PortSample.event_of_not_accepts hrst hacc, hafter] using ih hrest

/-- From reset the first edge without reset or acceptance makes the block idle, and silent edges leave it so. -/
theorem afterReset_of_silent {b : PortSample} {xs : List PortSample} (hrst : b.rst = false)
    (hacc : b.accepts .afterReset = false) (hxs : ∀ e ∈ xs, e.rst = false ∧ e.cmdValid = false) :
    eventsOf .afterReset (b :: xs) = [] ∧ handshakeAfter .afterReset (b :: xs) = .idle := by
  have hafter : Handshake.afterReset.after b = .idle := Handshake.after_idle nofun hrst hacc
  simpa [eventsOf, handshakeAfter, PortSample.event_of_not_accepts hrst hacc, hafter] using idle_of_silent hxs

/-! ## The obligations -/

/-- Settles O50: each run applies the events of its edges, and dropping the `NOP`s from a history changes no register,
so equal histories without `NOP`s have equal effects. -/
theorem resultDoesNotDependOnTiming : Obligations.ResultDoesNotDependOnTiming := by
  intro s t xs ys rest rest' hregs hs ht hevents
  refine ⟨_, _, runSteps_events s xs rest hs, runSteps_events t ys rest' ht, ?_, rfl, rfl⟩
  calc eventsEffect (eventsOf s.handshake xs) s.regs
      = eventsEffect (withoutNops (eventsOf s.handshake xs)) s.regs := (eventsEffect_withoutNops _ _).symm
    _ = eventsEffect (withoutNops (eventsOf t.handshake ys)) t.regs := by rw [hevents, hregs]
    _ = eventsEffect (eventsOf t.handshake ys) t.regs := eventsEffect_withoutNops _ _

/-- Settles O54: the reset edge leaves the registers of `CLR`; the edges after it have no event and end in an idle
block, which is ready at every edge without reset. -/
theorem resetStepThenReady : Obligations.ResetStepThenReady := by
  refine ⟨fun s e rest hinput hrst => ?_, fun s b xs rest hreset hinput hrst hacc hxs => ?_⟩
  · exact ⟨PortSample.cmdReady_of_rst hrst _, _, step_of_rst hinput hrst, rfl, rfl, rfl, exec_eq .clr s⟩
  · obtain ⟨hevents, hidle⟩ := afterReset_of_silent hrst hacc hxs
    have hrun := runSteps_events s (b :: xs) rest hinput
    rw [hreset, hevents, hidle] at hrun
    exact ⟨_, hrun, rfl, rfl, fun c hc => by rw [c.cmdReady_idle, hc, Bool.not_false]⟩

/-- Settles O12: the handshake plays no part in what an edge with `rst = 1` accepts or does. -/
theorem resetWinsOverAnyCommand : Obligations.ResetWinsOverAnyCommand :=
  fun s _ _ hinput hrst => ⟨PortSample.accepts_of_rst hrst s.handshake, step_of_rst hinput hrst⟩

end Sys2Proof.Machine

namespace Sys2Proof.Machine

/-! ## What a command leaves of the state before it -/

/-- A command's next state, read field by field. -/
theorem exec_next {i : Instr} {s t : State} (h : exec i s = .next t) :
    t.regs = commandEffect i s.regs ∧ t.handshake = s.handshake ∧ t.input = s.input := by
  cases (exec_eq i s).symm.trans h
  exact ⟨rfl, rfl, rfl⟩

/-- The one next state of a step, which uses up at most the first sample. -/
theorem exists_step (s : State) : ∃ t, step s = .next t ∧ t.input = s.input.tail := by
  rcases step_cases s with ⟨hi, hs⟩ | ⟨e, rest, hi, -, hs⟩ | ⟨e, rest, ev, hi, -, hs⟩
  · exact ⟨_, hs, by rw [hi, List.tail_nil]⟩
  · exact ⟨_, hs, by rw [hi, List.tail_cons]⟩
  · exact ⟨_, hs, by rw [hi, List.tail_cons]⟩

/-! ## The registers `PRE` and the counter under one `PUSH` (R22, R23, R110) -/

@[simp] theorem Regs.reset_pre (i : Fin 3) : Regs.reset.pre i = 0x00#8 := by
  revert i; decide

@[simp] theorem Regs.publish_pre (r : Regs) (i : Fin 3) : r.publish.pre i = r.pre i := by
  match i with
  | 0 | 1 | 2 => rfl

@[simp] theorem Regs.raise_pre (r : Regs) (e : Exception) (i : Fin 3) : (r.raise e).pre i = r.pre i := by
  match e, i with
  | .invalidInput, 0 | .invalidInput, 1 | .invalidInput, 2 => rfl

/-- A byte waits in the register `PRE[i]` that the counter names, and in no other. -/
theorem Regs.absorb_pre (c : Byte) (r : Regs) (i : Fin 3) :
    (r.absorb c).pre i = if r.n.toNat = i.val then c else r.pre i := by
  rcases r.absorb_cases c with ⟨hn, ha⟩ | ⟨hn, ha⟩ | ⟨hn, ha⟩ | ⟨hn, ha⟩ | ⟨hn, ha⟩ <;>
    rw [ha, hn] <;> match i with | 0 | 1 | 2 => rfl

theorem Regs.absorb_pre_of_ne {r : Regs} {i : Fin 3} (h : r.n.toNat ≠ i.val) (c : Byte) :
    (r.absorb c).pre i = r.pre i :=
  (r.absorb_pre c i).trans (if_neg h)

/-- Before the fourth byte no fold happens. -/
theorem Regs.absorb_v_of_lt_three {r : Regs} (h : r.n.toNat < 3) (c : Byte) : (r.absorb c).v = r.v := by
  rcases r.absorb_cases c with ⟨-, ha⟩ | ⟨-, ha⟩ | ⟨-, ha⟩ | ⟨hn, -⟩ | ⟨hn, -⟩
  · rw [ha]
  · rw [ha]
  · rw [ha]
  · simp [hn, Count.toNat] at h
  · simp [hn, Count.toNat] at h

theorem Count.toNat_le_four (n : Count) : n.toNat ≤ 4 := by
  cases n <;> decide

theorem Regs.absorb_n_toNat (c : Byte) (r : Regs) : (r.absorb c).n.toNat = min (r.n.toNat + 1) 4 := by
  by_cases hn : r.n = .four
  · rw [Regs.absorb_n_of_long hn, hn]
    rfl
  · have hlt := Count.toNat_lt_four.2 hn
    rw [Regs.absorb_n_of_short hn]
    omega

theorem Count.ofLength_toNat (k : Nat) : (Count.ofLength k).toNat = min k 4 := by
  match k with
  | 0 | 1 | 2 | 3 => rfl
  | k + 4 => exact (Nat.min_eq_right (Nat.le_add_left 4 k)).symm

/-- `PUSH` absorbs its byte, or finds the login ended and does nothing. -/
theorem commandEffect_push_cases (c : Byte) (r : Regs) :
    (r.ended = true ∧ commandEffect (.push c) r = r) ∨
    (r.ended = false ∧ commandEffect (.push c) r = r.absorb c) := by
  cases h : r.ended <;> simp [commandEffect, h]

/-- `FIN` publishes, raises, or finds the login ended and does nothing. -/
theorem commandEffect_fin_cases (r : Regs) :
    (r.ended = true ∧ commandEffect .fin r = r) ∨
    (r.ended = false ∧ r.n = .four ∧ commandEffect .fin r = r.publish) ∨
    (r.ended = false ∧ r.n ≠ .four ∧ commandEffect .fin r = r.raise .invalidInput) := by
  cases h : r.ended <;> by_cases hn : r.n = .four <;> simp [commandEffect, h, hn, Regs.longEnough_iff]

/-- After `FIN` the login has ended, one way or the other. -/
theorem commandEffect_fin_ended (r : Regs) : (commandEffect .fin r).ended = true := by
  rcases commandEffect_fin_cases r with ⟨hended, heff⟩ | ⟨-, -, heff⟩ | ⟨-, -, heff⟩ <;> rw [heff]
  · exact hended
  · exact Regs.ended_eq_true.2 (.inl r.publish_done)
  · exact Regs.ended_eq_true.2 (.inr (r.raise_err _))

/-- What changes a register `PRE[i]`: the `PUSH` absorbed at its index, or the start of a login. -/
theorem eventEffect_changes_pre {ev : Event} {r : Regs} {i : Fin 3}
    (h : (eventEffect ev r).pre i ≠ r.pre i) :
    (ev = .command (.push ((eventEffect ev r).pre i)) ∧ r.ended = false ∧ r.n.toNat = i.val) ∨
    (ev.startsLogin ∧ (eventEffect ev r).pre i = 0x00#8) := by
  match ev with
  | .reset => exact .inr ⟨.inl rfl, Regs.reset_pre i⟩
  | .command .nop => exact absurd rfl h
  | .command .clr => exact .inr ⟨.inr rfl, Regs.reset_pre i⟩
  | .command (.push c) =>
    simp only [eventEffect] at h ⊢
    rcases commandEffect_push_cases c r with ⟨-, heff⟩ | ⟨hended, heff⟩ <;> rw [heff] at h ⊢
    · exact absurd rfl h
    · have hn : r.n.toNat = i.val := by
        by_contra hne
        exact h (Regs.absorb_pre_of_ne hne c)
      exact .inl ⟨by rw [Regs.absorb_pre, if_pos hn], hended, hn⟩
  | .command .fin =>
    simp only [eventEffect] at h
    rcases commandEffect_fin_cases r with ⟨-, heff⟩ | ⟨-, -, heff⟩ | ⟨-, -, heff⟩ <;> rw [heff] at h
    · exact absurd rfl h
    · exact absurd (r.publish_pre i) h
    · exact absurd (r.raise_pre _ i) h

/-! ## The invariants (R31) -/

theorem Regs.reset_inv : Regs.reset.Inv where
  flags_exclusive := by decide
  done_long := by decide
  err_short := by decide
  v_zero _ := rfl
  pre_zero i _ := Regs.reset_pre i

theorem Regs.absorb_inv {r : Regs} (hr : r.ended = false) (h : r.Inv) (c : Byte) : (r.absorb c).Inv := by
  obtain ⟨hdone, herr⟩ := Regs.ended_eq_false.1 hr
  refine ⟨by simp [hdone], by simp [hdone], by simp [herr], fun hn => ?_, fun i hi => ?_⟩
  · have hlt := Count.toNat_lt_four.2 hn
    rw [Regs.absorb_n_toNat] at hlt
    have hshort : r.n ≠ .four := Count.toNat_lt_four.1 (by omega)
    rw [Regs.absorb_v_of_lt_three (by omega), h.v_zero hshort]
  · rw [Regs.absorb_n_toNat] at hi
    rw [Regs.absorb_pre_of_ne (by omega), h.pre_zero i (by omega)]

theorem Regs.publish_inv {r : Regs} (hr : r.ended = false) (hn : r.n = .four) (h : r.Inv) : r.publish.Inv := by
  obtain ⟨-, herr⟩ := Regs.ended_eq_false.1 hr
  refine ⟨by simp [herr], fun _ => hn, by simp [herr], h.v_zero, fun i hi => ?_⟩
  exact (r.publish_pre i).trans (h.pre_zero i hi)

theorem Regs.raise_inv {r : Regs} (hr : r.ended = false) (hn : r.n ≠ .four) (h : r.Inv) (e : Exception) :
    (r.raise e).Inv := by
  obtain ⟨hdone, -⟩ := Regs.ended_eq_false.1 hr
  refine ⟨by simp [hdone], by simp [hdone], by simp [hn], by simpa using h.v_zero, fun i hi => ?_⟩
  exact (r.raise_pre e i).trans (h.pre_zero i (by simpa using hi))

/-- Every event keeps the invariants: it starts a login, absorbs a byte, ends a login by its length, or does nothing. -/
theorem eventEffect_inv {r : Regs} (h : r.Inv) (ev : Event) : (eventEffect ev r).Inv := by
  match ev with
  | .reset => exact Regs.reset_inv
  | .command .nop => exact h
  | .command .clr => exact Regs.reset_inv
  | .command (.push c) =>
    rw [eventEffect]
    rcases commandEffect_push_cases c r with ⟨-, heff⟩ | ⟨hr, heff⟩ <;> rw [heff]
    · exact h
    · exact Regs.absorb_inv hr h c
  | .command .fin =>
    rw [eventEffect]
    rcases commandEffect_fin_cases r with ⟨-, heff⟩ | ⟨hr, hn, heff⟩ | ⟨hr, hn, heff⟩ <;> rw [heff]
    · exact h
    · exact Regs.publish_inv hr hn h
    · exact Regs.raise_inv hr hn h _

/-! ## Histories -/

/-- Nothing before the last start of a login reaches the registers (R3). -/
theorem eventsEffect_forgets {evs : List Event} (h : ∃ ev ∈ evs, ev.startsLogin) (r r' : Regs) :
    eventsEffect evs r = eventsEffect evs r' := by
  induction evs generalizing r r' with
  | nil => simp at h
  | cons ev evs ih =>
    rw [eventsEffect_cons, eventsEffect_cons]
    by_cases hev : ev.startsLogin
    · rw [eventEffect_of_startsLogin hev, eventEffect_of_startsLogin hev]
    · exact ih (by simpa [hev] using h) _ _

theorem eventsOf_offers (h : Handshake) (ws : List CmdWord) :
    eventsOf h (ws.map .offer) = ws.map fun w => .command (decode w) := by
  induction ws generalizing h with
  | nil => rfl
  | cons w ws ih => simp [eventsOf, PortSample.event_offer, ih]

/-- The words of some commands, offered one after another, are those commands. -/
theorem eventsOf_offered_commands (h : Handshake) (is : List Instr) :
    eventsOf h ((is.map encode).map .offer) = is.map .command := by
  rw [eventsOf_offers, List.map_map]
  exact List.map_congr_left fun i _ => congrArg Event.command (decode_encode i)

theorem pushedBytes_pushes (L : List Byte) : pushedBytes (L.map fun c => .command (.push c)) = L := by
  induction L with
  | nil => rfl
  | cons c cs ih => exact congrArg (c :: ·) ih

/-- The expansion of R67 is a run of R121. -/
theorem isRun_loginCommands (L : List Byte) : IsRun ((loginCommands L).map .command) L := by
  refine ⟨.command .clr :: L.map fun c => .command (.push c), by simp [loginCommands],
    _, _, rfl, .inr rfl, fun ev hev => ?_, (pushedBytes_pushes L).symm⟩
  obtain ⟨c, -, rfl⟩ := List.mem_map.1 hev
  exact .inr ⟨c, rfl⟩

theorem Login.image_outputs (L : List Byte) : (Login.image ⟨L, true⟩).outputs = (serial L).outcome := by
  rcases Nat.lt_or_ge L.length 4 with hlen | hlen
  · rw [Login.image_outputs_of_short hlen, serial_of_short hlen]
    rfl
  · rw [Login.image_outputs_of_long hlen, serial_of_long hlen]
    rfl

/-- One step more at the end of a run. -/
theorem runSteps_succ {k : Nat} {s t : State} (h : runSteps k s = .next t) : runSteps (k + 1) s = step t := by
  induction k generalizing s with
  | zero =>
    cases h
    obtain ⟨u, hu, -⟩ := exists_step t
    simp [runSteps, hu]
  | succ k ih =>
    obtain ⟨u, hu, -⟩ := exists_step s
    simp only [runSteps, hu] at h
    rw [runSteps, hu]
    exact ih h

/-! ## Acceptance and the handshake (R29, R61, R154) -/

theorem PortSample.cmdReady_working {e : PortSample} (hrst : e.rst = false) :
    e.cmdReady .working = !e.busy := by
  simp [PortSample.cmdReady, hrst]

/-- A ready block accepts what is offered without reset, and works on it. -/
theorem PortSample.event_of_ready {e : PortSample} {h : Handshake} (hrst : e.rst = false)
    (hvalid : e.cmdValid = true) (hready : e.cmdReady h = true) :
    e.event? h = some (.command (decode e.cmd)) ∧ h.after e = .working := by
  rcases e.event_cases h with ⟨hrst', -⟩ | ⟨-, -, -, hev, hafter⟩ | ⟨-, hno, -⟩
  · simp [hrst] at hrst'
  · exact ⟨hev, hafter⟩
  · simp [hvalid, hready] at hno

/-- An offered command is the first one accepted, or leaves the events to the edges after it. -/
theorem eventsOf_cons_of_offered {a : PortSample} (h : Handshake) (hrst : a.rst = false)
    (hvalid : a.cmdValid = true) (xs : List PortSample) :
    (a.cmdReady h = true ∧ (eventsOf h (a :: xs)).head? = some (.command (decode a.cmd))) ∨
    (a.cmdReady h = false ∧ eventsOf h (a :: xs) = eventsOf (h.after a) xs) := by
  cases hready : a.cmdReady h with
  | true =>
    obtain ⟨hev, -⟩ := PortSample.event_of_ready hrst hvalid hready
    exact .inl ⟨rfl, by simp [eventsOf, hev]⟩
  | false =>
    have hacc : a.accepts h = false := by simp [PortSample.accepts, hready]
    exact .inr ⟨rfl, by simp [eventsOf, PortSample.event_of_not_accepts hrst hacc]⟩

/-- A block that is ready and is offered nothing is idle after the edge. -/
theorem Handshake.after_of_ready_silent {e : PortSample} {h : Handshake} (hready : e.cmdReady h = true)
    (hvalid : e.cmdValid = false) : h.after e = .idle := by
  rcases e.event_cases h with ⟨hrst, -⟩ | ⟨-, hvalid', -⟩ | ⟨hrst, -, -, hidle | ⟨rfl, hbusy, -⟩⟩
  · simp [PortSample.cmdReady_of_rst hrst] at hready
  · simp [hvalid] at hvalid'
  · exact hidle
  · simp [PortSample.cmdReady_working hrst, hbusy] at hready

/-- A block becomes working only at an edge whose event is a command. -/
theorem PortSample.event_of_begins_working {e : PortSample} {h : Handshake} (hh : h ≠ .working)
    (hafter : h.after e = .working) : e.event? h = some (.command (decode e.cmd)) := by
  rcases e.event_cases h with ⟨-, -, hreset⟩ | ⟨-, -, -, hev, -⟩ | ⟨-, -, -, hidle | ⟨hwork, -⟩⟩
  · simp [hreset] at hafter
  · exact hev
  · simp [hidle] at hafter
  · exact absurd hwork hh

theorem PortSample.event_of_rst {e : PortSample} (hrst : e.rst = true) (h : Handshake) :
    e.event? h = some .reset ∧ h.after e = .afterReset := by
  simp [PortSample.event?, Handshake.after, hrst]

/-- From any state, a reset edge and silent edges after it leave an idle block with the reset registers (R150). -/
theorem runSteps_of_reset_silent {s : State} {a b : PortSample} {xs rest : List PortSample}
    (hinput : s.input = (a :: b :: xs) ++ rest) (ha : a.rst = true) (hb : b.rst = false)
    (hacc : b.accepts .afterReset = false) (hxs : ∀ e ∈ xs, e.rst = false ∧ e.cmdValid = false) :
    runSteps (a :: b :: xs).length s = .next { regs := Regs.reset, handshake := .idle, input := rest } := by
  obtain ⟨hev, hafter⟩ := PortSample.event_of_rst ha s.handshake
  obtain ⟨hevents, hidle⟩ := afterReset_of_silent hb hacc hxs
  rw [runSteps_events s (a :: b :: xs) rest hinput, eventsOf, handshakeAfter, hev, hafter, hevents, hidle]
  rfl

/-! ## Assembler lines -/

theorem AsmLine.assemble_of_wellFormed {a : AsmLine} (h : a.wellFormed = true) :
    a.assemble = some (a.commands.map encode) := if_pos h

/-- The word of `PUSH` for a byte written as a number. -/
theorem encode_push_ofNat {n : Nat} (h : n ≤ 255) :
    encode (.push (BitVec.ofNat 8 n)) = 0x200#10 + BitVec.ofNat 10 n := by
  rw [encode_push, BitVec.setWidth_ofNat_of_le_of_lt (by decide) (by omega)]

theorem printable_iff {x : Char} : printable x = true ↔ 0x20 ≤ x.toNat ∧ x.toNat ≤ 0x7E := by
  simp [printable]

/-! ## The fold and its byte (R84) -/

/-- XOR with a widened byte works on the low byte of `v` alone. -/
theorem xor32_zext32_toNat (v : Word) (c : Byte) :
    (xor32 v (zext32 c)).toNat = 256 * (v.toNat / 256) + (v.setWidth 8 ^^^ c).toNat := by
  have hhigh : (xor32 v (zext32 c)).toNat / 256 = v.toNat / 256 := by
    have hc : c.toNat / 2 ^ 8 = 0 := Nat.div_eq_of_lt c.isLt
    rw [xor32, BitVec.toNat_xor, zext32_toNat, show 256 = 2 ^ 8 from rfl, Nat.xor_div_two_pow, hc, Nat.xor_zero]
  have hlow : (xor32 v (zext32 c)).toNat % 256 = (v.setWidth 8 ^^^ c).toNat := by
    rw [← xor32_zext32_low, BitVec.toNat_setWidth]
  rw [← hhigh, ← hlow, Nat.div_add_mod]

theorem fold_eq_iff {v : Word} {c c' : Byte} :
    fold v c = fold v c' ↔ umodK (xor32 v (zext32 c)) = umodK (xor32 v (zext32 c')) :=
  BitVec.add_right_inj _

/-- Two XOR results differ by less than 256, so equal remainders by 1337 mean equal results. -/
theorem fold_injective_byte {v : Word} {c c' : Byte} (h : fold v c = fold v c') : c = c' := by
  have hrem := congrArg BitVec.toNat (fold_eq_iff.1 h)
  rw [umodK_toNat, umodK_toNat, xor32_zext32_toNat, xor32_zext32_toNat] at hrem
  have hlow := (v.setWidth 8 ^^^ c).isLt
  have hlow' := (v.setWidth 8 ^^^ c').isLt
  have heq : (v.setWidth 8 ^^^ c).toNat = (v.setWidth 8 ^^^ c').toNat := by omega
  exact (BitVec.xor_right_inj _).1 (BitVec.eq_of_toNat_eq heq)

theorem fold_eq_self_iff (v : Word) (c : Byte) : fold v c = v ↔ 1337 ∣ (xor32 v (zext32 c)).toNat := by
  have hv := v.isLt
  rw [← BitVec.toNat_inj, fold_toNat, Nat.dvd_iff_mod_eq_zero]
  omega

/-! ## The obligations -/

/-- Settles O5, by the decoder's reading of each constructor's word. -/
theorem decodeOfEncodeIsTheCommand : Obligations.DecodeOfEncodeIsTheCommand := decode_encode

/-- Settles O46: a step changes the registers by its event's effect or not at all. -/
theorem everyStepKeepsTheInvariants : Obligations.EveryStepKeepsTheInvariants := by
  intro s t hinv hstep
  rcases step_regs_cases hstep with ⟨-, ht⟩ | ⟨ev, -, ht⟩ <;> rw [ht]
  · exact hinv
  · exact eventEffect_inv hinv ev

/-- Settles O48: every event commutes with taking the image, so each step and each history does. -/
theorem blockRefinesTheLogin : Obligations.BlockRefinesTheLogin := by
  refine ⟨Login.image_empty.symm, fun l s hs => ?_, fun s xs rest hs hinput => ?_⟩
  · obtain ⟨t, hstep, -⟩ := exists_step s
    refine ⟨t, hstep, ?_⟩
    rcases step_regs_cases hstep with ⟨hev, ht⟩ | ⟨ev, hev, ht⟩ <;> rw [ht, hev, hs]
    · rfl
    · exact eventEffect_image ev l
  · refine ⟨_, runSteps_events s xs rest hinput, rfl, ?_⟩
    rw [hs]
    exact eventsEffect_image _ Login.empty

/-- Settles O8: the assembled words are the commands of a run with the login `L`, whose image shows the serial. -/
theorem loginPseudoInstructionIsOneCall : Obligations.LoginPseudoInstructionIsOneCall := by
  refine ⟨fun L => rfl, fun cs hcs => ?_, fun L ws s rest hws hinput => ?_, exec_eq .clr State.reset⟩
  · have hprintable : (AsmLine.login cs).wellFormed = true :=
      List.all_eq_true.2 fun x hx => printable_iff.2 (hcs x hx)
    exact AsmLine.assemble_of_wellFormed hprintable
  · obtain ⟨-, rfl⟩ := AsmLine.assemble_eq_some.1 hws
    have hrun := runSteps_events s _ rest hinput
    rw [List.length_map, eventsOf_offered_commands] at hrun
    have hregs := eventsEffect_of_isRun (isRun_loginCommands L) s.regs
    exact ⟨_, hrun, (congrArg Regs.outputs hregs).trans (Login.image_outputs L), rfl⟩

/-- Settles O17, by the equation of `exec` and the case split of a step. -/
theorem everyStepAnswersANextState : Obligations.EveryStepAnswersANextState :=
  ⟨fun i s => ⟨_, exec_eq i s, rfl, rfl⟩, exists_step⟩

/-- Settles O23: the byte is ignored after the end, else absorbed. -/
theorem pushFrame : Obligations.PushFrame := by
  intro c s t h
  obtain ⟨hregs, hhandshake, hinput⟩ := exec_next h
  refine ⟨hhandshake, hinput, ?_⟩
  rcases commandEffect_push_cases c s.regs with ⟨-, heff⟩ | ⟨hended, heff⟩ <;> rw [hregs, heff]
  · exact ⟨rfl, rfl, fun _ _ => rfl, fun _ => rfl, fun _ => rfl, fun _ => rfl⟩
  · refine ⟨Regs.absorb_done c _, Regs.absorb_err c _, fun i hi => Regs.absorb_pre_of_ne hi c,
      fun hn => Regs.absorb_v_of_lt_three hn c, fun hn => (Regs.absorb_n_of_long hn c).trans hn.symm, fun hflags => ?_⟩
    simp [Regs.ended_eq_true.2 hflags] at hended

/-- Settles O24: `FIN` is ignored after the end, else it sets the one flag that the counter selects. -/
theorem finFrame : Obligations.FinFrame := by
  intro s t h
  obtain ⟨hregs, hhandshake, hinput⟩ := exec_next h
  refine ⟨hhandshake, hinput, ?_⟩
  rcases commandEffect_fin_cases s.regs with ⟨-, heff⟩ | ⟨hended, hn, heff⟩ | ⟨hended, hn, heff⟩ <;>
    rw [hregs, heff]
  · exact ⟨rfl, rfl, fun _ => rfl, fun _ => rfl, fun _ => rfl, fun _ => rfl⟩
  · refine ⟨rfl, rfl, Regs.publish_pre _, fun _ => rfl, fun hn' => absurd hn hn', fun hflags => ?_⟩
    simp [Regs.ended_eq_true.2 hflags] at hended
  · refine ⟨rfl, rfl, Regs.raise_pre _ _, fun hn' => absurd hn' hn, fun _ => rfl, fun hflags => ?_⟩
    simp [Regs.ended_eq_true.2 hflags] at hended

/-- Settles O25: a second `FIN` finds the login ended; two bytes pushed from reset leave the counter at 1 and then 2. -/
theorem idempotentCommands : Obligations.IdempotentCommands := by
  refine ⟨fun i hi s => ⟨_, exec_eq i s, ?_⟩, 0x61#8, State.reset, _, _, rfl, rfl, by decide⟩
  rcases hi with rfl | rfl | rfl
  · rfl
  · rfl
  · exact exec_of_ended (commandEffect_fin_ended s.regs) nofun

/-- Settles O33: a step that changes a register has an event, and `eventEffect_changes_pre` says which. -/
theorem prefixBufferIsWrittenAtTheCounter : Obligations.PrefixBufferIsWrittenAtTheCounter := by
  intro s t i hstep hchange
  rcases step_regs_cases hstep with ⟨-, ht⟩ | ⟨ev, hev, ht⟩
  · exact absurd (by rw [ht]) hchange
  · rw [ht] at hchange ⊢
    rcases eventEffect_changes_pre hchange with ⟨hpush, hended, hn⟩ | ⟨hstart, hzero⟩
    · exact .inl ⟨hev.trans (congrArg some hpush), Regs.phase_eq_absorb.2 hended, hn⟩
    · exact .inr ⟨ev, hev, hstart, hzero⟩

/-- Settles O34: one byte counts by `absorb_n_toNat`, and a whole login by the image of its bytes. -/
theorem counterCountsAndSaturates : Obligations.CounterCountsAndSaturates := by
  refine ⟨fun c s hphase => ⟨_, exec_push_of_absorb hphase c, Regs.absorb_n_toNat c s.regs⟩,
    fun r => Count.toNat_le_four r.n, fun s xs rest L hinput habsorbs => ?_⟩
  refine ⟨_, runSteps_events s xs rest hinput, ?_⟩
  rw [eventsEffect_of_absorbs habsorbs]
  exact Count.ofLength_toNat L.length

/-- Settles O40: the fold adds a remainder below 1337 modulo `2 ^ 32`; V25 and V26 are the collision. -/
theorem foldFormulaAndWrap : Obligations.FoldFormulaAndWrap := by
  refine ⟨fun v c => rfl, fun v c => ?_, fold_eq_self_iff, by decide,
    0xFFFFFFFF#32, 0xFFFFFF00#32, 0xFF#8, by decide, by decide⟩
  have hfold : (fold v c).toNat = (v.toNat + (v ^^^ c.setWidth 32).toNat % 1337) % 2 ^ 32 := fold_toNat v c
  have hv := v.isLt
  dsimp only
  omega

/-- Settles O41, as R84's formula has it (log entry 10). -/
theorem foldSeparatesBytes : Obligations.FoldSeparatesBytes := fun _ _ _ => fold_injective_byte

/-- Settles O51: both runs apply the same events, which forget the registers they began with. -/
theorem clrForgetsTheHistory : Obligations.ClrForgetsTheHistory := by
  intro s t xs ys rest rest' hs ht hevents hstart
  refine ⟨_, _, runSteps_events s xs rest hs, runSteps_events t ys rest' ht, ?_, rfl, rfl⟩
  rw [← hevents]
  exact eventsEffect_forgets hstart s.regs t.regs

/-- Settles O52, by induction over the edges: each accepts the command held, or hands it on unchanged to the next. -/
theorem heldCommandIsTheOneAccepted : Obligations.HeldCommandIsTheOneAccepted := by
  intro h a xs hholds hvalid hrst
  induction xs generalizing h a with
  | nil =>
    rcases eventsOf_cons_of_offered h (hrst a List.mem_cons_self) hvalid [] with ⟨-, hhead⟩ | ⟨-, hnone⟩
    · exact .inr hhead
    · exact .inl hnone
  | cons b xs ih =>
    obtain ⟨hhold, hrest⟩ := hholds
    rcases eventsOf_cons_of_offered h (hrst a List.mem_cons_self) hvalid (b :: xs) with
      ⟨-, hhead⟩ | ⟨hready, hlater⟩
    · exact .inr hhead
    · obtain ⟨hbvalid, hbcmd⟩ := hhold hvalid hready
      rw [hlater, ← hbcmd]
      exact ih (h.after a) b hrest hbvalid fun e he => hrst e (List.mem_cons_of_mem a he)

/-- Settles O53: the reset edge leaves the reset registers, the silent edges an idle block, which accepts at once. -/
theorem commandAfterResetRunsAtOnce : Obligations.CommandAfterResetRunsAtOnce := by
  intro s a b c xs rest hinput ha hb hbvalid hxs hc hcvalid
  have hready : c.cmdReady .idle = true := by rw [c.cmdReady_idle, hc, Bool.not_false]
  obtain ⟨hev, hafter⟩ := PortSample.event_of_ready hc hcvalid hready
  rw [runSteps_succ (runSteps_of_reset_silent hinput ha hb (PortSample.accepts_of_silent hbvalid _) hxs),
    step_of_command rfl hev, hafter, State.reset_regs]

/-- Settles O55, by the ways an edge can be read and where each leaves the handshake. -/
theorem readyUnlessWorkingOrInReset : Obligations.ReadyUnlessWorkingOrInReset := by
  refine ⟨fun e h hready => ?_, fun s t hstep ht hs => ?_, fun s t e rest hinput hstep hready hvalid => ?_⟩
  · cases hrst : e.rst with
    | true => exact .inl rfl
    | false =>
      cases h with
      | idle => simp [e.cmdReady_idle, hrst] at hready
      | working => exact .inr ⟨by simpa [PortSample.cmdReady, hrst] using hready, .inl rfl⟩
      | afterReset => exact .inr ⟨by simpa [PortSample.cmdReady, hrst] using hready, .inr rfl⟩
  · rcases step_cases s with ⟨-, hnext⟩ | ⟨e, rest, hi, hev, hnext⟩ | ⟨e, rest, ev, hi, hev, hnext⟩ <;>
      cases hnext.symm.trans hstep
    · exact absurd ht hs
    · simp [PortSample.event_of_begins_working hs ht] at hev
    · exact ⟨_, by rw [State.nextEvent, hi]; exact PortSample.event_of_begins_working hs ht⟩
  · cases (step_cons hinput).symm.trans hstep
    exact Handshake.after_of_ready_silent hready hvalid

/-- Settles O1, by evaluation of the twelve words. -/
theorem encodingVectorsDecode : Obligations.EncodingVectorsDecode := by
  unfold Obligations.EncodingVectorsDecode
  decide

/-- Settles O7: a well-formed line is the word of its byte, and an operand above 255 is not well-formed. -/
theorem assemblerWords : Obligations.AssemblerWords := by
  refine ⟨rfl, rfl, rfl, fun c => ?_, fun d hd => ?_, fun d hd => ?_, fun x hlow hhigh => ?_, fun text => ?_⟩
  · exact congrArg (fun w => some [w]) (encode_push c)
  · have hwf : (AsmLine.push (.dec d)).wellFormed = true := decide_eq_true hd
    rw [AsmLine.assemble_of_wellFormed hwf]
    exact congrArg (fun w => some [w]) (encode_push_ofNat hd)
  · exact if_neg (by simpa [AsmLine.wellFormed, PushOperand.wellFormed] using hd)
  · have hwf : (AsmLine.push (.chr x)).wellFormed = true := printable_iff.2 ⟨hlow, hhigh⟩
    rw [AsmLine.assemble_of_wellFormed hwf]
    exact congrArg (fun w => some [w]) (encode_push_ofNat (by omega))
  · rw [assembleLine, readLine_comment]

/-- Settles O10: the word offered is the number's low bits, which the table's decoder reads as the port's does. -/
theorem offeredTableWordRunsFirst : Obligations.OfferedTableWordRunsFirst := by
  intro s nbits w i h
  unfold decodeTableWord at h
  split at h
  · cases h
    exact step_offerNext s _
  · cases h

/-- Settles O11: without a sample the other two ways of a step are closed. -/
theorem silentHostChangesNothing : Obligations.SilentHostChangesNothing := by
  intro s hinput
  rcases step_cases s with ⟨-, hstep⟩ | ⟨e, rest, hi, -⟩ | ⟨e, rest, ev, hi, -⟩
  · exact hstep
  · simp [hinput] at hi
  · simp [hinput] at hi

/-- Settles O13: reset and `CLR` have the same constant effect. -/
theorem resetStepEqualsClr : Obligations.ResetStepEqualsClr :=
  ⟨fun s => (handle_eq .reset s).trans (exec_eq .clr s).symm, fun _ h hrst => PortSample.cmdReady_of_rst hrst h,
    fun s => ⟨_, handle_eq .reset s, rfl, rfl, rfl⟩⟩

/-- Settles O15: the gate `DONE`, and `cmd_ready` in each handshake. -/
theorem outputsAreGatedAndShownWhileReady : Obligations.OutputsAreGatedAndShownWhileReady := by
  refine ⟨fun r => ⟨rfl, rfl, fun hdone => ?_, fun hdone => ?_⟩, fun s e hready => if_pos hready,
    fun s e hready => ?_, fun e hrst => ?_, fun e hrst => ?_⟩
  · exact if_pos hdone
  · rw [Regs.outputs, hdone, if_neg Bool.false_ne_true]
  · rw [State.observe, hready, if_neg Bool.false_ne_true]
  · rw [e.cmdReady_idle, hrst, Bool.not_false]
  · rw [PortSample.cmdReady_working hrst, Bool.not_eq_true']

/-- Settles O16, by the four values of the pair of flags. -/
theorem phaseIsAFunctionOfTheFlags : Obligations.PhaseIsAFunctionOfTheFlags := by
  intro r
  cases hdone : r.done <;> cases herr : r.err <;> simp [Regs.phase, hdone, herr]

/-- Settles O22: every command keeps the handshake and the samples, and the effect of `NOP` is the identity. -/
theorem controlCommandFrame : Obligations.ControlCommandFrame :=
  ⟨fun _ _ h => exec_next h, fun _ _ h => (exec_next h).2⟩

/-- Settles O45: after reset every register is zero, and no flag is set. -/
theorem invariantsHoldAtReset : Obligations.InvariantsHoldAtReset := Regs.reset_inv

end Sys2Proof.Machine
